-- ==== Sys2Proof/Word.lean ====
section
/-! DEFINITION. The widths of the Checksum engine (spec/00_scope.md R7, R8): bytes, 16-bit words, and the fields
of a transaction. Every value is unsigned. -/

namespace Sys2Proof

/-- An 8-bit value (R8). -/
abbrev Byte := BitVec 8

/-- A 16-bit value (R7, R8): a payload word, a register, a command word. -/
abbrev Word := BitVec 16

/-- An image index as a transaction carries it, 16 bits (spec/20_memory.md R34, R35). -/
abbrev Index := BitVec 16

/-- A register offset, 3 bits (spec/20_memory.md R34, R36). -/
abbrev Offset := BitVec 3

/-- A transaction descriptor, 32 bits (spec/30_encoding.md R53). -/
abbrev Descriptor := BitVec 32

end Sys2Proof
end

