-- ==== Sys2Proof/Config.lean ====
section
/-! DEFINITION. What a build of the engine fixes (spec/00_scope.md R6) and the one free value.
FIX_LATENCY and BUS_PROTOCOL are read by no rule and are not represented (spec/93_implementation_defined.md I8;
log 12). -/

namespace Sys2Proof

/-- The build-time parameter of R6: the size of the EEPROM image in bytes. -/
structure Config where
  LEN : Nat
  deriving DecidableEq, Repr

/-- R6: LEN is even and `4 <= LEN <= 65534`; anything else "is not a build of this hardware". -/
def Config.legal (c : Config) : Bool :=
  c.LEN % 2 == 0 && decide (4 ≤ c.LEN) && decide (c.LEN ≤ 65534)

/-- "256 in this design" (R6). UNVERIFIED: the source's literal is unaudited (spec/91_not_in_source.md N4; log 13). -/
def Config.design : Config := ⟨256⟩

/-- FREE VALUE: the byte at an index to which the spec gives no value, above all the image after reset
(spec/10_state.md R33: "it must not pick zero or any other fixed value"; log 2). Nothing constrains it. -/
opaque Config.freeByte : Nat → Byte

end Sys2Proof
end

