-- ==== Sys2Proof/Syntax.lean ====
section
/-! DEFINITION. The instructions of the engine: one constructor for each row of spec/opcode_table.json. The width of
every operand is in its type, as spec/30_encoding.md R55 gives it, so a term of Instr has no operand that does not fit. -/

namespace Sys2Proof

/-- The two command words and the four host transactions. -/
inductive Instr where
  /-- NOP, command word 0x0000 (spec/41_control.md R80). -/
  | nop
  /-- FIX, command word 0x0001 (spec/40_checksum.md R72). -/
  | fix
  /-- IMG_RD, the image read of index `i` (spec/20_memory.md R39). -/
  | imgRd (i : Index)
  /-- IMG_WR, the image write of byte `b` at index `i` (spec/20_memory.md R40). -/
  | imgWr (i : Index) (b : Byte)
  /-- REG_RD, the register read at offset `off` (spec/20_memory.md R41). -/
  | regRd (off : Offset)
  /-- REG_WR, the register write of `v` at offset `off` (spec/20_memory.md R42). -/
  | regWr (off : Offset) (v : Word)
  deriving DecidableEq, Repr

end Sys2Proof
end

