-- ==== Sys2Proof/Decode.lean ====
section
/-! DEFINITION. The two encoded forms (spec/30_encoding.md R53), their decoder (R54, R56), total and rejecting by name,
and the encoder written from the same tables. -/

namespace Sys2Proof

/-- An encoded form (R53): a command word, which is the data of a REG_WR to CMD, or a transaction descriptor. -/
inductive Encoded where
  | command (w : Word)
  | descriptor (d : Descriptor)
  deriving DecidableEq, Repr

/-- What a command word decodes to (R54). -/
inductive Command where
  | nop
  | fix
  | reserved (v : Word)
  deriving DecidableEq, Repr

/-- Why a descriptor spells no transaction (R56): a nonzero bit in a field R53 shows as zero, by the kind. -/
inductive DecodeError where
  | imgRdReservedBits (d : Descriptor)
  | imgWrReservedBits (d : Descriptor)
  | regRdReservedBits (d : Descriptor)
  | regWrReservedBits (d : Descriptor)
  deriving DecidableEq, Repr

/-- R54: total on the 65536 command words; all 16 bits take part. -/
def decodeCommand (w : Word) : Command :=
  if w = 0x0000#16 then .nop
  else if w = 0x0001#16 then .fix
  else .reserved w

/-- `d[31:30]` (R53). -/
def Descriptor.kind (d : Descriptor) : BitVec 2 := d.extractLsb' 30 2

/-- `i = d[23:8]` (R53). -/
def Descriptor.index (d : Descriptor) : Index := d.extractLsb' 8 16

/-- `b = d[7:0]` (R53). -/
def Descriptor.byte (d : Descriptor) : Byte := d.extractLsb' 0 8

/-- `off = d[18:16]` (R53). -/
def Descriptor.offset (d : Descriptor) : Offset := d.extractLsb' 16 3

/-- `v = d[15:0]` (R53). -/
def Descriptor.value (d : Descriptor) : Word := d.extractLsb' 0 16

/-- `d[29:24]`, zero in an image transaction (R53). -/
def Descriptor.imageZero (d : Descriptor) : BitVec 6 := d.extractLsb' 24 6

/-- `d[29:19]`, zero in a register transaction (R53). -/
def Descriptor.registerZero (d : Descriptor) : BitVec 11 := d.extractLsb' 19 11

/-- R56, case by case. -/
def decodeDescriptor (d : Descriptor) : Except DecodeError Instr :=
  if Descriptor.kind d = 0b00#2 then
    if Descriptor.imageZero d = 0 ∧ Descriptor.byte d = 0 then .ok (.imgRd (Descriptor.index d))
    else .error (.imgRdReservedBits d)
  else if Descriptor.kind d = 0b01#2 then
    if Descriptor.imageZero d = 0 then .ok (.imgWr (Descriptor.index d) (Descriptor.byte d))
    else .error (.imgWrReservedBits d)
  else if Descriptor.kind d = 0b10#2 then
    if Descriptor.registerZero d = 0 ∧ Descriptor.value d = 0 then .ok (.regRd (Descriptor.offset d))
    else .error (.regRdReservedBits d)
  else
    if Descriptor.registerZero d = 0 then .ok (.regWr (Descriptor.offset d) (Descriptor.value d))
    else .error (.regWrReservedBits d)

/-- The decoder of both forms. A reserved command word is the REG_WR to CMD that carries it (R58: writing one "is not a
bus error"; it reaches the engine), so the command form is never refused. DEDUCED from R53 and R54 (log 6). -/
def decode : Encoded → Except DecodeError Instr
  | .command w =>
    match decodeCommand w with
    | .nop => .ok .nop
    | .fix => .ok .fix
    | .reserved v => .ok (.regWr 0 v)
  | .descriptor d => decodeDescriptor d

/-- The encoder, from the tables of R53 and R54. -/
def encode : Instr → Encoded
  | .nop => .command 0x0000#16
  | .fix => .command 0x0001#16
  | .imgRd i => .descriptor (0b00#2 ++ 0#6 ++ i ++ 0#8)
  | .imgWr i b => .descriptor (0b01#2 ++ 0#6 ++ i ++ b)
  | .regRd off => .descriptor (0b10#2 ++ 0#11 ++ off ++ 0#16)
  | .regWr off v => .descriptor (0b11#2 ++ 0#11 ++ off ++ v)

/-- The transaction that carries an instruction (R61: `nop` is 0xC0000000, `fix` is 0xC0000001). -/
def carrier : Instr → Instr
  | .nop => .regWr 0 0x0000#16
  | .fix => .regWr 0 0x0001#16
  | .imgRd i => .imgRd i
  | .imgWr i b => .imgWr i b
  | .regRd off => .regRd off
  | .regWr off v => .regWr off v

/-- One row of spec/opcode_table.json: how many bits it has, its match and its mask (a command word's in the low half). -/
structure OpcodeRow where
  nbits : Nat
  value : BitVec 32
  mask  : BitVec 32
  deriving DecidableEq, Repr

/-- The row of spec/opcode_table.json an instruction belongs to. -/
def Instr.row : Instr → OpcodeRow
  | .nop => ⟨16, 0x0000#32, 0xFFFF#32⟩
  | .fix => ⟨16, 0x0001#32, 0xFFFF#32⟩
  | .imgRd _ => ⟨32, 0x00000000#32, 0xFF0000FF#32⟩
  | .imgWr _ _ => ⟨32, 0x40000000#32, 0xFF000000#32⟩
  | .regRd _ => ⟨32, 0x80000000#32, 0xFFF8FFFF#32⟩
  | .regWr _ _ => ⟨32, 0xC0000000#32, 0xFFF80000#32⟩

/-- How many bits an encoded form has. -/
def Encoded.nbits : Encoded → Nat
  | .command _ => 16
  | .descriptor _ => 32

/-- The bits of an encoded form, numbered as spec/opcode_table.json numbers them. -/
def Encoded.bits : Encoded → BitVec 32
  | .command w => w.setWidth 32
  | .descriptor d => d

/-- A form fits a row: it has the row's number of bits, and the masked bits are the row's match. -/
def OpcodeRow.fits (r : OpcodeRow) (e : Encoded) : Bool :=
  e.nbits == r.nbits && (e.bits &&& r.mask) == r.value

/-- The encoded form with `nbits` bits whose bits are `w`: 16 bits are a command word, 32 a descriptor (R53); there is no
other form. -/
def Encoded.ofTableWord (nbits w : Nat) : Option Encoded :=
  if nbits = 16 ∧ w < 2 ^ 16 then some (.command (BitVec.ofNat 16 w))
  else if nbits = 32 ∧ w < 2 ^ 32 then some (.descriptor (BitVec.ofNat 32 w))
  else none

/-- The instruction the decoder reads from the table word `w` of `nbits` bits. -/
def decodeTableWord (nbits w : Nat) : Option Instr :=
  match Encoded.ofTableWord nbits w with
  | none => none
  | some e =>
    match decode e with
    | .ok i => some i
    | .error _ => none

end Sys2Proof
end

