-- ==== Sys2Proof/Machine/State.lean ====
section
/-! DEFINITION. The state: the engine's four fields of spec/10_state.md R13, exactly; the configuration it is built with; and
the host's port (what the host has still to issue and the response it last received), since one step is the whole
system's (spec/00_scope.md R11). -/

namespace Sys2Proof.Machine

/-- The image buffer `img` (spec/10_state.md R15): one cell for each existing index, in rising order. An unlisted index
does not exist and reads as nothing; an access to it is a bus error (spec/20_memory.md R35; log 3). -/
abbrev Memory := List Host.Cell

/-- The memory whose cells from index `n` on hold `bytes`. -/
def Memory.ofBytesFrom : Nat → List Byte → Memory
  | _, [] => []
  | n, b :: bytes => (n, b) :: Memory.ofBytesFrom (n + 1) bytes

/-- The memory that holds `bytes` from index 0. -/
def Memory.ofBytes (bytes : List Byte) : Memory := Memory.ofBytesFrom 0 bytes

/-- An image of `len` bytes, each unspecified (spec/10_state.md R31, R33; log 2). -/
def Memory.unspecified (len : Nat) : Memory := Memory.ofBytes ((List.range len).map Config.freeByte)

/-- The four live bits of `STATUS` (spec/10_state.md R19). The reserved bits are RAZ/WI (R24) and have no storage. -/
structure Status where
  DONE   : Bool
  MATCH  : Bool
  ILLCMD : Bool
  AERR   : Bool
  deriving DecidableEq, Repr

/-- The whole architectural state of one engine, "exactly these fields" (spec/10_state.md R13). -/
structure Engine where
  img      : Memory
  STATUS   : Status
  CSUM_OLD : Word
  CSUM_NEW : Word
  deriving DecidableEq, Repr

/-- The codes of a bus error (spec/60_exceptions.md R86): "labels for a model's error type". -/
inductive BusErrorCode where
  /-- Image index out of range. -/
  | imgRange
  /-- Unassigned register offset. -/
  | regUnassigned
  deriving DecidableEq, Repr

/-- What the host receives for a transaction (spec/00_scope.md R10: respond and raise BusError). -/
inductive Response where
  /-- A write completed. -/
  | done
  /-- An image read returned a byte. -/
  | byte (b : Byte)
  /-- A register read returned a 16-bit value. -/
  | word (v : Word)
  /-- The error response, in place of data (spec/60_exceptions.md R87). -/
  | busError (code : BusErrorCode)
  deriving DecidableEq, Repr

/-- What stops the machine with a fault: nothing. Every error of spec/60_exceptions.md R86 is a response and a sticky
bit, after which "the engine keeps working" (spec/70_reset_and_hazards.md R112), so no meaning raises one (log 9). -/
inductive Fault where
  deriving DecidableEq, Repr

/-- Why the model does not go on. -/
inductive Refusal where
  /-- Raised by an arm of exec whose instruction has no meaning yet; no arm does. Safe. -/
  | notModelled (mnemonic : String)
  /-- Raised by step: the host's next descriptor spells no transaction (spec/30_encoding.md R56,
  spec/93_implementation_defined.md I10: refused at the decoder, never reaches the engine). Safe. -/
  | noTransaction (err : DecodeError)
  /-- Raised by launch and step: `LEN` is odd, below 4 or above 65534, not a build of this hardware
  (spec/00_scope.md R6, spec/93_implementation_defined.md I1). Safe. -/
  | illegalLength (len : Nat)
  /-- Raised by launch: an image of another length than LEN cannot be held (spec/70_reset_and_hazards.md R104). Safe. -/
  | wrongImageLength (length : Nat)
  deriving DecidableEq, Repr

/-- The state of the whole system between two transactions. -/
structure State where
  /-- The configuration the engine is built with (spec/00_scope.md R6): no step changes it (log 1). -/
  config   : Config
  /-- The engine. -/
  engine   : Engine
  /-- What the host has still to issue, the next first (spec/30_encoding.md R60; log 4, log 5). -/
  script   : List Encoded
  /-- The response of the transaction just completed; none before the first (log 4). -/
  response : Option Response
  deriving DecidableEq, Repr

/-- The engine right after reset with the image contents `img` (spec/10_state.md R31, spec/70_reset_and_hazards.md R100). -/
def Engine.afterReset (img : Memory) : Engine :=
  { img := img
    STATUS := { DONE := false, MATCH := false, ILLCMD := false, AERR := false }
    CSUM_OLD := 0x0000#16
    CSUM_NEW := 0x0000#16 }

/-- The launch state of a build over an image: a reset engine, nothing issued yet, no response yet. -/
def State.afterReset (c : Config) (img : Memory) : State :=
  { config := c, engine := Engine.afterReset img, script := [], response := none }

/-- The machine right after reset: this design's LEN, every image byte unspecified. -/
def State.reset : State := State.afterReset Config.design (Memory.unspecified Config.design.LEN)

end Sys2Proof.Machine
end

