-- ==== Sys2Proof/Machine/Ops.lean ====
section
/-! DEFINITION. The named operations over the image and the registers, raising a bus error (the engine's one exception),
completing a transaction, launching the machine, and taking the host's next transaction. -/

namespace Sys2Proof.Machine

/-- The cells stand at the indices `n`, `n+1`, and so on. -/
def Memory.wfFrom : Nat → Memory → Bool
  | _, [] => true
  | n, (a, _) :: m => a == n && Memory.wfFrom (n + 1) m

/-- The canonical form: the cells stand at 0, 1, …, in this order, so indices rise strictly and equal images are equal
lists (spec/10_state.md R15: an array, indices 0..LEN-1). -/
def Memory.wf (m : Memory) : Bool := Memory.wfFrom 0 m

/-- What stands at index `i`; an unlisted index does not exist and reads as nothing. -/
def Memory.read : Memory → Nat → Option Byte
  | [], _ => none
  | (a, b) :: m, i => if a = i then some b else Memory.read m i

/-- `img[i] <- b` (spec/00_scope.md R10). An index that does not exist stays so. -/
def Memory.write : Memory → Nat → Byte → Memory
  | [], _, _ => []
  | (a, x) :: m, i, b => if a = i then (a, b) :: m else (a, x) :: Memory.write m i b

/-- `img[i]` (spec/00_scope.md R10), for `i < LEN`. No rule reads past the image; the byte there is left free (log 2). -/
def Memory.byteAt (m : Memory) (i : Nat) : Byte := (Memory.read m i).getD (Config.freeByte i)

/-- The little-endian word at the indices `i` and `i + 1` (spec/20_memory.md R37): the one place byte order is decided. -/
def Memory.wordAt (m : Memory) (i : Nat) : Word :=
  (Memory.byteAt m i).setWidth 16 ||| ((Memory.byteAt m (i + 1)).setWidth 16 <<< 8)

/-- The little-endian write of `v` at the indices `i` and `i + 1`, low byte first (spec/20_memory.md R37). -/
def Memory.writeWord (m : Memory) (i : Nat) (v : Word) : Memory :=
  Memory.write (Memory.write m i (v.extractLsb' 0 8)) (i + 1) (v.extractLsb' 8 8)

/-- `BusError(code)` (spec/60_exceptions.md R87): `AERR <- 1`, the error response, nothing else. It saves no state and
transfers no control (R92), and there is no return from it (R93). -/
def Engine.busError (e : Engine) (code : BusErrorCode) : Engine × Response :=
  ({ e with STATUS := { e.STATUS with AERR := true } }, .busError code)

/-- The transaction is over: the engine is as it left it and the host has received its response (spec/00_scope.md R11). -/
def State.complete (s : State) (r : Engine × Response) : Host.Outcome State Fault Refusal :=
  .next { s with engine := r.1, response := some r.2 }

/-- The host's next transaction, with the state in which it has been issued; none when the script is over. -/
def State.fetch (s : State) : Option (Encoded × State) :=
  match s.script with
  | [] => none
  | e :: rest => some (e, { s with script := rest })

/-- Between transactions the engine "is idle and holds its state" (spec/60_exceptions.md R99; log 5). -/
def State.idle (s : State) : State := s

/-- The host issues the encoded form `e` next. -/
def State.issueNext (s : State) (e : Encoded) : State := { s with script := e :: s.script }

/-- The launch: the configuration check of spec/00_scope.md R6, an image of exactly LEN bytes
(spec/70_reset_and_hazards.md R104) as a free input (spec/10_state.md R33), and the reset of R100. -/
def launch (c : Config) (image : List Byte) : Except Refusal State :=
  if c.legal then
    if image.length = c.LEN then .ok (State.afterReset c (Memory.ofBytes image))
    else .error (.wrongImageLength image.length)
  else .error (.illegalLength c.LEN)

end Sys2Proof.Machine
end

