-- ==== Sys2Proof/Machine/Flags.lean ====
section
/-! DEFINITION. Every write of a STATUS bit (the table of spec/10_state.md R30) and the word a read of STATUS returns
(R19). Only spec/60_exceptions.md R87 sets AERR: Engine.busError in Ops. -/

namespace Sys2Proof.Machine

/-- What a read of `STATUS` returns, bits 15 down to 0 (spec/10_state.md R19, R24). -/
def Status.toWord (f : Status) : Word :=
  0#6 ++ BitVec.ofBool f.AERR ++ BitVec.ofBool f.ILLCMD ++ 0#6 ++ BitVec.ofBool f.MATCH ++ BitVec.ofBool f.DONE

/-- FIX: `DONE <- 1`, `MATCH` as found (spec/40_checksum.md R72, R73). -/
def Status.afterFix (f : Status) (equal : Bool) : Status := { f with DONE := true, MATCH := equal }

/-- An accepted image write: `DONE <- 0`, `MATCH <- 0` (spec/20_memory.md R40). -/
def Status.afterImageWrite (f : Status) : Status := { f with DONE := false, MATCH := false }

/-- A reserved command: `ILLCMD <- 1` (spec/41_control.md R81). -/
def Status.afterReserved (f : Status) : Status := { f with ILLCMD := true }

/-- A `STATUS` write of `v`: bit 8 clears ILLCMD, bit 9 clears AERR, every other bit is ignored
(spec/41_control.md R82, spec/30_encoding.md R57). -/
def Status.clearSticky (f : Status) (v : Word) : Status :=
  { f with ILLCMD := f.ILLCMD && !v.getLsbD 8, AERR := f.AERR && !v.getLsbD 9 }

end Sys2Proof.Machine
end

