-- ==== Sys2Proof/Machine/Checksum.lean ====
section
/-! DEFINITION. The checksum datapath (spec/40_checksum.md R64 to R71) and the FIX command (R72, R73). -/

namespace Sys2Proof.Machine

/-- The checksum seed (spec/00_scope.md R7). UNVERIFIED: the source's literal is unaudited (log 13). -/
def SEED : Word := 0xAAAA#16

/-- The number of payload words, `LEN/2 - 1` (spec/00_scope.md R7). -/
def NWORDS (c : Config) : Nat := c.LEN / 2 - 1

/-- `rotl16(v, k)` for `0 <= k <= 15` (spec/00_scope.md R9). -/
def rotl16 (v : Word) (k : Nat) : Word := (v <<< k) ||| (v >>> (16 - k))

/-- Payload word `k` of the image (spec/40_checksum.md R64). -/
def payloadWord (m : Memory) (k : Nat) : Word := Memory.wordAt m (2 * k)

/-- The StoredChecksum of the image (spec/40_checksum.md R65). -/
def stored (c : Config) (m : Memory) : Word := Memory.wordAt m (c.LEN - 2)

/-- One step of the rolling checksum, XOR and then rotation (spec/40_checksum.md R66). -/
def checksumStep (acc w : Word) : Word := rotl16 (w ^^^ acc) 1

/-- The accumulator after the first `n` payload words, in ascending order from the seed (spec/40_checksum.md R67, R68). -/
def accumulate (m : Memory) (n : Nat) : Word :=
  (List.range n).foldl (fun acc k => checksumStep acc (payloadWord m k)) SEED

/-- The computed checksum of an image (spec/40_checksum.md R67). -/
def compute (c : Config) (m : Memory) : Word := accumulate m (NWORDS c)

/-- The write-back of the computed checksum (spec/40_checksum.md R71). -/
def writeBack (c : Config) (m : Memory) (new : Word) : Memory := Memory.writeWord m (c.LEN - 2) new

/-- FIX (spec/40_checksum.md R72, R73): `old` is captured before any write (R76), the bytes are written only on a
mismatch, both checksum registers always. -/
def Engine.fix (c : Config) (e : Engine) : Engine × Response :=
  let old := stored c e.img
  let new := compute c e.img
  ({ img := if new = old then e.img else writeBack c e.img new
     STATUS := e.STATUS.afterFix (decide (new = old))
     CSUM_OLD := old
     CSUM_NEW := new }, .done)

/-- FIX, command word 0x0001 (spec/40_checksum.md R72): the whole command is one step. -/
def execFix (s : State) : Host.Outcome State Fault Refusal := s.complete (s.engine.fix s.config)

end Sys2Proof.Machine
end

