-- ==== Sys2Proof/Machine/Control.lean ====
section
/-! DEFINITION. The control commands (spec/41_control.md R80, R81) and the running of a command word. -/

namespace Sys2Proof.Machine

/-- NOP has no effect; the write that carries it completes (spec/41_control.md R80). -/
def Engine.nop (e : Engine) : Engine × Response := (e, .done)

/-- A reserved command sets ILLCMD and completes normally (spec/41_control.md R81, spec/60_exceptions.md R88). -/
def Engine.reserved (e : Engine) : Engine × Response := ({ e with STATUS := e.STATUS.afterReserved }, .done)

/-- "execute command v" (spec/20_memory.md R42, spec/10_state.md R18). -/
def Engine.runCommand (c : Config) (e : Engine) (v : Word) : Engine × Response :=
  match decodeCommand v with
  | .nop => e.nop
  | .fix => e.fix c
  | .reserved _ => e.reserved

/-- NOP, command word 0x0000 (spec/41_control.md R80). -/
def execNop (s : State) : Host.Outcome State Fault Refusal := s.complete s.engine.nop

end Sys2Proof.Machine
end

