-- ==== Sys2Proof/Machine/Operands.lean ====
section
/-! DEFINITION. The operand forms: an image index and a register offset (spec/20_memory.md R35, R36; the map of
spec/10_state.md R17). -/

namespace Sys2Proof.Machine

/-- The image index exists: `i < LEN` (spec/20_memory.md R35). -/
def hasIndex (c : Config) (i : Index) : Bool := decide (i.toNat < c.LEN)

/-- The registers of spec/10_state.md R17. -/
inductive RegName where
  | CMD
  | STATUS
  | CSUM_OLD
  | CSUM_NEW
  | LEN
  deriving DecidableEq, Repr

/-- The register at an offset; 5, 6 and 7 are unassigned (spec/10_state.md R17). -/
def regAt (off : Offset) : Option RegName :=
  match off.toNat with
  | 0 => some .CMD
  | 1 => some .STATUS
  | 2 => some .CSUM_OLD
  | 3 => some .CSUM_NEW
  | 4 => some .LEN
  | _ => none

/-- The offset of a register (spec/10_state.md R17), for the names a script may use (spec/30_encoding.md R60). -/
def RegName.offset : RegName → Nat
  | .CMD => 0
  | .STATUS => 1
  | .CSUM_OLD => 2
  | .CSUM_NEW => 3
  | .LEN => 4

end Sys2Proof.Machine
end

