-- ==== Sys2Proof/Machine/Image.lean ====
section
/-! DEFINITION. The image transactions (spec/20_memory.md R39, R40). -/

namespace Sys2Proof.Machine

/-- `MemRead(i, 1)` (spec/20_memory.md R39). -/
def Engine.imageRead (c : Config) (e : Engine) (i : Index) : Engine × Response :=
  if hasIndex c i then (e, .byte (Memory.byteAt e.img i.toNat)) else e.busError .imgRange

/-- `MemWrite(i, 1, b)` (spec/20_memory.md R40): the flags are cleared even when the byte does not change. -/
def Engine.imageWrite (c : Config) (e : Engine) (i : Index) (b : Byte) : Engine × Response :=
  if hasIndex c i then
    ({ e with img := Memory.write e.img i.toNat b, STATUS := e.STATUS.afterImageWrite }, .done)
  else e.busError .imgRange

/-- IMG_RD (spec/20_memory.md R39). -/
def execImgRd (i : Index) (s : State) : Host.Outcome State Fault Refusal := s.complete (s.engine.imageRead s.config i)

/-- IMG_WR (spec/20_memory.md R40). -/
def execImgWr (i : Index) (b : Byte) (s : State) : Host.Outcome State Fault Refusal :=
  s.complete (s.engine.imageWrite s.config i b)

end Sys2Proof.Machine
end

