-- ==== Sys2Proof/Machine/Registers.lean ====
section
/-! DEFINITION. The register transactions (spec/20_memory.md R41, R42; the map of spec/10_state.md R17). -/

namespace Sys2Proof.Machine

/-- The value of a register as the host reads it (spec/20_memory.md R41): CMD reads 0 (spec/41_control.md R85), LEN the
configuration constant (spec/10_state.md R27). -/
def Engine.regValue (c : Config) (e : Engine) : RegName → Word
  | .CMD => 0x0000#16
  | .STATUS => e.STATUS.toWord
  | .CSUM_OLD => e.CSUM_OLD
  | .CSUM_NEW => e.CSUM_NEW
  | .LEN => BitVec.ofNat 16 c.LEN

/-- A host write of `v` to a register (spec/20_memory.md R42): CMD runs the command, STATUS clears sticky bits
(spec/41_control.md R82), the read-only registers ignore it without error (R83). -/
def Engine.regSet (c : Config) (e : Engine) (v : Word) : RegName → Engine × Response
  | .CMD => e.runCommand c v
  | .STATUS => ({ e with STATUS := e.STATUS.clearSticky v }, .done)
  | .CSUM_OLD => (e, .done)
  | .CSUM_NEW => (e, .done)
  | .LEN => (e, .done)

/-- `RegRead(off)` (spec/20_memory.md R41). -/
def Engine.registerRead (c : Config) (e : Engine) (off : Offset) : Engine × Response :=
  match regAt off with
  | some r => (e, .word (e.regValue c r))
  | none => e.busError .regUnassigned

/-- `RegWrite(off, v)` (spec/20_memory.md R42). -/
def Engine.registerWrite (c : Config) (e : Engine) (off : Offset) (v : Word) : Engine × Response :=
  match regAt off with
  | some r => e.regSet c v r
  | none => e.busError .regUnassigned

/-- REG_RD (spec/20_memory.md R41). -/
def execRegRd (off : Offset) (s : State) : Host.Outcome State Fault Refusal := s.complete (s.engine.registerRead s.config off)

/-- REG_WR (spec/20_memory.md R42). -/
def execRegWr (off : Offset) (v : Word) (s : State) : Host.Outcome State Fault Refusal :=
  s.complete (s.engine.registerWrite s.config off v)

end Sys2Proof.Machine
end

