-- ==== Sys2Proof/Machine/Dispatch.lean ====
section
/-! DEFINITION. The meaning of each instruction, one arm for each row of spec/opcode_table.json. -/

namespace Sys2Proof.Machine

def exec (i : Instr) (s : State) : Host.Outcome State Fault Refusal :=
  match i with
  | .nop => Sys2Proof.Machine.execNop s
  | .fix => Sys2Proof.Machine.execFix s
  | .imgRd n => Sys2Proof.Machine.execImgRd n s
  | .imgWr n b => Sys2Proof.Machine.execImgWr n b s
  | .regRd off => Sys2Proof.Machine.execRegRd off s
  | .regWr off v => Sys2Proof.Machine.execRegWr off v s

end Sys2Proof.Machine
end

