-- ==== Sys2Proof/Machine/Step.lean ====
section
/-! DEFINITION. One step of the whole system (spec/00_scope.md R11): the host issues its next transaction, the engine
performs it, the host receives the response. -/

namespace Sys2Proof.Machine

/-- One transaction. A configuration that is no build of this hardware is refused (spec/93_implementation_defined.md I1),
and so is a descriptor that spells no transaction (I10); with nothing to issue the engine is idle. -/
def step (s : State) : Host.Outcome State Fault Refusal :=
  if s.config.legal then
    match s.fetch with
    | none => .next s.idle
    | some (e, issued) =>
      match decode e with
      | .ok i => exec i issued
      | .error err => .refused (.noTransaction err)
  else .refused (.illegalLength s.config.LEN)

/-- The host issues the table word `w` of `nbits` bits next. A width that is no encoded form changes nothing. -/
def State.withFetchWord (s : State) (nbits w : Nat) : State :=
  match Encoded.ofTableWord nbits w with
  | some e => s.issueNext e
  | none => s

end Sys2Proof.Machine
end

