-- ==== Sys2Proof/WellFormed.lean ====
section
/-! DEFINITION. Host scripts as they are written (spec/30_encoding.md R60, R61), with numbers that nothing bounds yet,
and the check of R62 that they fit their fields. Instr itself needs no check: its operands carry their widths. -/

namespace Sys2Proof

/-- A script line that is one transaction (R60). -/
inductive BasicLine where
  /-- `rd.img i` -/
  | rdImg (i : Nat)
  /-- `wr.img i, b` -/
  | wrImg (i b : Nat)
  /-- `rd.reg off` -/
  | rdReg (off : Nat)
  /-- `wr.reg off, v` -/
  | wrReg (off v : Nat)
  deriving DecidableEq, Repr

/-- A script line: a transaction, or a pseudo-instruction of R61. -/
inductive ScriptLine where
  | basic (l : BasicLine)
  | nop
  | fix
  | clrerr
  | rdStatus
  | rdOld
  | rdNew
  | rdLen
  /-- `ld.img i, b0, b1, ..., bn` -/
  | ldImg (i : Nat) (bs : List Nat)
  /-- `fill lo, hi, b` -/
  | fill (lo hi b : Nat)
  deriving DecidableEq, Repr

/-- `i` in 0..65535 (R62). -/
def fitsIndex (i : Nat) : Bool := decide (i < 65536)

/-- `b` in 0..255 (R62). -/
def fitsByte (b : Nat) : Bool := decide (b < 256)

/-- `off` in 0..7 (R62). -/
def fitsOffset (off : Nat) : Bool := decide (off < 8)

/-- `v` in 0..65535 (R62). -/
def fitsWord (v : Nat) : Bool := decide (v < 65536)

/-- R62 for a line that is one transaction. An index `>= LEN` or an offset 5 to 7 that fits is well-formed. -/
def BasicLine.wellFormed : BasicLine → Bool
  | .rdImg i => fitsIndex i
  | .wrImg i b => fitsIndex i && fitsByte b
  | .rdReg off => fitsOffset off
  | .wrReg off v => fitsOffset off && fitsWord v

/-- R62 for every line. `ld.img` names at least one byte (`b0`), and its last index `i+n` fits. -/
def ScriptLine.wellFormed : ScriptLine → Bool
  | .basic l => l.wellFormed
  | .nop | .fix | .clrerr | .rdStatus | .rdOld | .rdNew | .rdLen => true
  | .ldImg i bs => !bs.isEmpty && decide (i + bs.length ≤ 65536) && bs.all fitsByte
  | .fill lo hi b => fitsIndex lo && fitsIndex hi && fitsByte b

end Sys2Proof
end

