-- ==== Sys2Proof/Machine/Script.lean ====
section
/-! DEFINITION. Host scripts (spec/30_encoding.md R60 to R62): what each line expands to, the reader of a line's text,
and how the host comes to issue a script. -/

namespace Sys2Proof.Machine

/-- Why a script is refused. It never reaches the engine and is not a bus error (spec/30_encoding.md R62). -/
inductive ScriptError where
  /-- A number does not fit its field (R62). -/
  | doesNotFit (line : ScriptLine)
  /-- The text is no line of R60 or R61. -/
  | unreadable (text : List Char)
  deriving DecidableEq, Repr

/-- The expansion of a line (spec/30_encoding.md R60, R61). -/
def expandLine : ScriptLine → List BasicLine
  | .basic l => [l]
  | .nop => [.wrReg 0 0x0000]
  | .fix => [.wrReg 0 0x0001]
  | .clrerr => [.wrReg 1 0x0300]
  | .rdStatus => [.rdReg 1]
  | .rdOld => [.rdReg 2]
  | .rdNew => [.rdReg 3]
  | .rdLen => [.rdReg 4]
  | .ldImg i bs => bs.zipIdx.map fun p => .wrImg (i + p.2) p.1
  | .fill lo hi b => (List.range (hi + 1 - lo)).map fun k => .wrImg (lo + k) b

/-- The transaction a line spells (spec/30_encoding.md R60), for numbers that fit their fields. -/
def basicInstr : BasicLine → Instr
  | .rdImg i => .imgRd (BitVec.ofNat 16 i)
  | .wrImg i b => .imgWr (BitVec.ofNat 16 i) (BitVec.ofNat 8 b)
  | .rdReg off => .regRd (BitVec.ofNat 3 off)
  | .wrReg off v => .regWr (BitVec.ofNat 3 off) (BitVec.ofNat 16 v)

/-- The transactions of one line; refused when a number does not fit (spec/30_encoding.md R62). DESIGN CHOICE: an `ld.img`
that runs past index 65535 is refused whole, its first bytes too (log 16). -/
def assembleLine (l : ScriptLine) : Except ScriptError (List Instr) :=
  if l.wellFormed then .ok ((expandLine l).map basicInstr) else .error (.doesNotFit l)

/-- The transactions of a script, one line after the other (spec/30_encoding.md R60). DESIGN CHOICE: R62 refuses a line
that does not fit and does not say what becomes of the others; here the whole script is refused, under the name of its
first such line (log 16). -/
def assemble : List ScriptLine → Except ScriptError (List Instr)
  | [] => .ok []
  | l :: ls =>
    match assembleLine l with
    | .error err => .error err
    | .ok is =>
      match assemble ls with
      | .error err => .error err
      | .ok rest => .ok (is ++ rest)

/-- The host is given transactions to issue, after those it still has (log 5). -/
def State.issueAll (s : State) (is : List Instr) : State := { s with script := s.script ++ is.map encode }

/-- The host is given a script to issue; of a script with a refused line it issues none of the lines (DESIGN CHOICE,
log 16). -/
def State.issueScript (s : State) (ls : List ScriptLine) : Except ScriptError State :=
  match assemble ls with
  | .error err => .error err
  | .ok is => .ok (s.issueAll is)

/-! The text of a line. -/

/-- A space, a tab or a carriage return. -/
def isBlankChar (c : Char) : Bool := c == ' ' || c == '\t' || c == '\r'

/-- The text without blanks at its ends. -/
def trimChars (cs : List Char) : List Char := ((cs.dropWhile isBlankChar).reverse.dropWhile isBlankChar).reverse

/-- "Text after `;` is a comment" (spec/30_encoding.md R60). -/
def dropComment (cs : List Char) : List Char := cs.takeWhile (fun c => !(c == ';'))

/-- Cuts `=> x` off, and says whether it was there (spec/30_encoding.md R60: it may stand after a read). -/
def cutExpected : List Char → List Char × Bool
  | [] => ([], false)
  | '=' :: '>' :: _ => ([], true)
  | c :: cs => (c :: (cutExpected cs).1, (cutExpected cs).2)

/-- The operands between commas. -/
def splitCommas : List Char → List (List Char)
  | [] => [[]]
  | c :: cs =>
    if c == ',' then [] :: splitCommas cs
    else
      match splitCommas cs with
      | [] => [[c]]
      | p :: ps => (c :: p) :: ps

/-- A digit of a base up to sixteen. -/
def digitValue (base : Nat) (c : Char) : Option Nat :=
  let n := c.toNat
  let d := if 48 ≤ n ∧ n ≤ 57 then n - 48 else if 97 ≤ n ∧ n ≤ 102 then n - 87
    else if 65 ≤ n ∧ n ≤ 70 then n - 55 else base
  if d < base then some d else none

/-- The digits after those read so far, whose value is `acc`. -/
def readDigits (base : Nat) : Nat → List Char → Option Nat
  | acc, [] => some acc
  | acc, c :: cs =>
    match digitValue base c with
    | some d => readDigits base (acc * base + d) cs
    | none => none

/-- "Numbers are decimal or `0x` hexadecimal" (spec/30_encoding.md R60). -/
def readNumber : List Char → Option Nat
  | [] => none
  | ['0', 'x'] => none
  | '0' :: 'x' :: ds => readDigits 16 0 ds
  | ds => readDigits 10 0 ds

/-- A register offset: a number or a name (spec/30_encoding.md R60). -/
def readOffset (cs : List Char) : Option Nat :=
  if cs = ['C', 'M', 'D'] then some RegName.CMD.offset
  else if cs = ['S', 'T', 'A', 'T', 'U', 'S'] then some RegName.STATUS.offset
  else if cs = ['C', 'S', 'U', 'M', '_', 'O', 'L', 'D'] then some RegName.CSUM_OLD.offset
  else if cs = ['C', 'S', 'U', 'M', '_', 'N', 'E', 'W'] then some RegName.CSUM_NEW.offset
  else if cs = ['L', 'E', 'N'] then some RegName.LEN.offset
  else readNumber cs

/-- All the numbers of a list of operands. -/
def readNumbers : List (List Char) → Option (List Nat)
  | [] => some []
  | c :: cs =>
    match readNumber c, readNumbers cs with
    | some n, some ns => some (n :: ns)
    | _, _ => none

/-- The words of spec/30_encoding.md R60 and R61. -/
inductive LineWord where
  | rdImg | wrImg | rdReg | wrReg | nop | fix | clrerr | rdStatus | rdOld | rdNew | rdLen | ldImg | fill
  deriving DecidableEq, Repr

/-- The word a line begins with. -/
def lineWord (cs : List Char) : Option LineWord :=
  if cs = ['r', 'd', '.', 'i', 'm', 'g'] then some .rdImg
  else if cs = ['w', 'r', '.', 'i', 'm', 'g'] then some .wrImg
  else if cs = ['r', 'd', '.', 'r', 'e', 'g'] then some .rdReg
  else if cs = ['w', 'r', '.', 'r', 'e', 'g'] then some .wrReg
  else if cs = ['n', 'o', 'p'] then some .nop
  else if cs = ['f', 'i', 'x'] then some .fix
  else if cs = ['c', 'l', 'r', 'e', 'r', 'r'] then some .clrerr
  else if cs = ['r', 'd', '.', 's', 't', 'a', 't', 'u', 's'] then some .rdStatus
  else if cs = ['r', 'd', '.', 'o', 'l', 'd'] then some .rdOld
  else if cs = ['r', 'd', '.', 'n', 'e', 'w'] then some .rdNew
  else if cs = ['r', 'd', '.', 'l', 'e', 'n'] then some .rdLen
  else if cs = ['l', 'd', '.', 'i', 'm', 'g'] then some .ldImg
  else if cs = ['f', 'i', 'l', 'l'] then some .fill
  else none

/-- The line a word and its operands spell. -/
def lineOf (w : LineWord) (args : List (List Char)) : Option ScriptLine :=
  match w, args with
  | .rdImg, [i] => (readNumber i).map fun i => .basic (.rdImg i)
  | .wrImg, [i, b] => (readNumber i).bind fun i => (readNumber b).map fun b => .basic (.wrImg i b)
  | .rdReg, [off] => (readOffset off).map fun off => .basic (.rdReg off)
  | .wrReg, [off, v] => (readOffset off).bind fun off => (readNumber v).map fun v => .basic (.wrReg off v)
  | .nop, [] => some .nop
  | .fix, [] => some .fix
  | .clrerr, [] => some .clrerr
  | .rdStatus, [] => some .rdStatus
  | .rdOld, [] => some .rdOld
  | .rdNew, [] => some .rdNew
  | .rdLen, [] => some .rdLen
  | .ldImg, i :: bs => (readNumber i).bind fun i => (readNumbers bs).map fun bs => .ldImg i bs
  | .fill, [lo, hi, b] =>
    (readNumber lo).bind fun lo => (readNumber hi).bind fun hi => (readNumber b).map fun b => .fill lo hi b
  | _, _ => none

/-- The lines after which `=> x` may stand: the reads. -/
def LineWord.isRead : LineWord → Bool
  | .rdImg | .rdReg | .rdStatus | .rdOld | .rdNew | .rdLen => true
  | .wrImg | .wrReg | .nop | .fix | .clrerr | .ldImg | .fill => false

/-- Reads one line of text (spec/30_encoding.md R60, R61); a line that is blank or a comment spells nothing (log 14). -/
def readLine (text : List Char) : Except ScriptError (Option ScriptLine) :=
  let cut := cutExpected (dropComment text)
  let body := trimChars cut.1
  let word := body.takeWhile (fun c => !isBlankChar c)
  let rest := trimChars (body.dropWhile (fun c => !isBlankChar c))
  let args := if rest.isEmpty then [] else (splitCommas rest).map trimChars
  if body.isEmpty && !cut.2 then .ok none
  else
    match lineWord word with
    | none => .error (.unreadable text)
    | some w =>
      if cut.2 && !w.isRead then .error (.unreadable text)
      else
        match lineOf w args with
        | some l => .ok (some l)
        | none => .error (.unreadable text)

end Sys2Proof.Machine
end

