-- ==== Sys2Proof/Machine/HostFlow.lean ====
section
/-! DEFINITION. The host's two flows as far as they use the engine (spec/00_scope.md R4 (d); spec/70_reset_and_hazards.md
R108 to R110). The target device is outside the engine (spec/00_scope.md R5): its operations are names only. -/

namespace Sys2Proof.Machine

/-- What a host does in a flow: a transaction on the engine, or an operation on the target device (R108 steps 5 to 7). -/
inductive HostAction where
  | transaction (i : Instr)
  | eraseDevice
  | writeDevice
  | resetDevice
  deriving DecidableEq, Repr

/-- Why the host stops a flow. -/
inductive HostError where
  /-- The input holds fewer than LEN bytes (R109). -/
  | shortRead
  deriving DecidableEq, Repr

/-- The responses the host receives in the next `n` steps, in order, for `n` transactions it has still to issue: each
gives one before the next begins (spec/20_memory.md R47). A step that stops ends the list. -/
def responses : Nat → State → List Response
  | 0, _ => []
  | n + 1, s =>
    match step s with
    | .next t => t.response.toList ++ responses n t
    | .fault _ => []
    | .refused _ => []

/-- Write `image` to `img`, from index 0 (R108 step 2). -/
def loadImage (image : List Byte) : List Instr :=
  image.zipIdx.map fun p => .imgWr (BitVec.ofNat 16 p.2) p.1

/-- Read back `img[0..len-1]` (R108 step 4). -/
def readBack (len : Nat) : List Instr := (List.range len).map fun i => .imgRd (BitVec.ofNat 16 i)

/-- The Flash flow over an input, in the order of R108; a short input stops it before any step on the device (R109). -/
def flashFlow (len : Nat) (input : List Byte) : Except HostError (List HostAction) :=
  if input.length < len then .error .shortRead
  else .ok ((loadImage (input.take len) ++ [carrier .fix] ++ readBack len).map .transaction
    ++ [.eraseDevice, .writeDevice, .resetDevice])

/-- Staging a backup image in the engine: no FIX (R110). -/
def backupStaging (image : List Byte) : List Instr := loadImage image ++ readBack image.length

/-- The instruction runs FIX: the command word itself, or the write to CMD that carries it. -/
def runsFix : Instr → Bool
  | .fix => true
  | .regWr off v => decide (off = 0) && decide (v = 0x0001#16)
  | .nop | .imgRd _ | .imgWr _ _ | .regRd _ => false

/-- The instruction is an image write. -/
def writesImage : Instr → Bool
  | .imgWr _ _ => true
  | .nop | .fix | .imgRd _ | .regRd _ | .regWr _ _ => false

/-- How far a Flash flow has come. -/
inductive FlashPhase where
  /-- The image in the engine has no FIX since its last write. -/
  | loading
  /-- FIX has run since the last image write. -/
  | repaired
  | erased
  | written
  | restarted
  deriving DecidableEq, Repr

/-- "checksum repair always happens strictly before erase, and erase always happens strictly before write" (R108), and
the device reset ends the flow; none when an action is out of order. -/
def FlashPhase.next : FlashPhase → HostAction → Option FlashPhase
  | .loading, .transaction i => some (if runsFix i then .repaired else .loading)
  | .repaired, .transaction i => some (if writesImage i then .loading else .repaired)
  | .erased, .transaction _ => some .erased
  | .written, .transaction _ => some .written
  | .restarted, .transaction _ => some .restarted
  | .repaired, .eraseDevice => some .erased
  | .erased, .writeDevice => some .written
  | .written, .resetDevice => some .restarted
  | _, _ => none

/-- The phase a list of actions ends in. -/
def flashPhaseAfter : FlashPhase → List HostAction → Option FlashPhase
  | p, [] => some p
  | p, a :: as =>
    match p.next a with
    | some q => flashPhaseAfter q as
    | none => none

end Sys2Proof.Machine
end

