-- ==== Sys2Proof/Safety.lean ====
section
/-! DEFINITION. What claims call a sound state and a safe flow. -/

namespace Sys2Proof.Machine

/-- The configuration is a build of this hardware (spec/00_scope.md R6), and the image is in the canonical form with a
cell for each of its LEN indices (spec/10_state.md R15). -/
abbrev State.Sound (s : State) : Prop :=
  s.config.legal = true ∧ Memory.wf s.engine.img = true ∧ s.engine.img.length = s.config.LEN

/-- The invariant after FIX (spec/10_state.md R32): while DONE, the stored checksum, CSUM_NEW and the computed checksum
agree, and MATCH says whether CSUM_OLD agrees with them. -/
abbrev Engine.ResultsCurrent (c : Config) (e : Engine) : Prop :=
  e.STATUS.DONE = true →
    stored c e.img = e.CSUM_NEW ∧ e.CSUM_NEW = compute c e.img ∧
      (e.STATUS.MATCH = true ↔ e.CSUM_OLD = e.CSUM_NEW)

/-- MATCH stands only beside DONE: one is never cleared without the other, and only FIX sets it (spec/10_state.md R30). -/
abbrev Engine.MatchOnlyWhenDone (e : Engine) : Prop := e.STATUS.MATCH = true → e.STATUS.DONE = true

/-- The invariant that every step keeps. -/
abbrev State.Inv (s : State) : Prop :=
  s.Sound ∧ s.engine.ResultsCurrent s.config ∧ s.engine.MatchOnlyWhenDone

/-- Every transaction the host has still to issue is one (spec/30_encoding.md R56). -/
def State.ScriptDecodes (s : State) : Prop := ∀ e ∈ s.script, ∃ i, decode e = .ok i

/-- A whole Flash flow in the order of spec/70_reset_and_hazards.md R108. -/
def KeepsFlashOrder (acts : List HostAction) : Bool := flashPhaseAfter .loading acts == some .restarted

/-- A host that stages a backup issues no FIX (spec/70_reset_and_hazards.md R110). -/
def IssuesNoFix (is : List Instr) : Bool := is.all fun i => !runsFix i

end Sys2Proof.Machine
end

