-- ==== Sys2Proof/Certificates/Slice0/Obligations.lean ====
section
/-! DEFINITION. The statements for the provers. Each docstring names the rule or section of spec/ it formalises. -/

open Sys2Proof Sys2Proof.Machine

/-! Launch and reset. -/

/-- spec/10_state.md R31: after reset the image is any LEN bytes the launch is given, STATUS, CSUM_OLD and CSUM_NEW are
0x0000, and the LEN register is the constant. -/
def Obligations.LaunchHoldsAnyImage : Prop :=
  ∀ (c : Config) (image : List Byte), c.legal = true → image.length = c.LEN →
    ∃ s, launch c image = .ok s ∧ s.config = c ∧
      (∀ i : Nat, Memory.read s.engine.img i = image[i]?) ∧
      s.engine.STATUS = { DONE := false, MATCH := false, ILLCMD := false, AERR := false } ∧
      exec (.regRd 1) s = .next { s with response := some (.word 0x0000#16) } ∧
      s.engine.CSUM_OLD = 0x0000#16 ∧ s.engine.CSUM_NEW = 0x0000#16 ∧
      exec (.regRd 4) s = .next { s with response := some (.word (BitVec.ofNat 16 c.LEN)) }

/-- spec/00_scope.md section 4 and spec/93_implementation_defined.md I1: a LEN that is odd, below 4 or above 65534 is
refused at launch and by every step, and a legal one is refused by neither; an image of another length is refused
(spec/70_reset_and_hazards.md section 2). -/
def Obligations.IllegalBuildIsRefused : Prop :=
  ∀ (c : Config),
    ((c.LEN % 2 = 1 ∨ c.LEN < 4 ∨ 65534 < c.LEN) →
      (∀ image, launch c image = .error (.illegalLength c.LEN)) ∧
      ∀ s : State, s.config = c → step s = .refused (.illegalLength c.LEN)) ∧
    (c.LEN % 2 = 0 → 4 ≤ c.LEN → c.LEN ≤ 65534 →
      (∀ image : List Byte, image.length ≠ c.LEN → launch c image = .error (.wrongImageLength image.length)) ∧
      (∀ image : List Byte, image.length = c.LEN → ∃ s, launch c image = .ok s) ∧
      ∀ (s : State) (n : Nat), s.config = c → step s ≠ .refused (.illegalLength n))

/-- The model's reset: this design's 256 indices, each holding the free byte of its index (log 2), the registers zero as
spec/10_state.md section 7 says, and, by the model's own choice (log 4, log 5), nothing issued and no response. -/
def Obligations.ResetIsTheDesignWithUnspecifiedImage : Prop :=
  State.reset.config.LEN = 256 ∧
  (∀ i < 256, Memory.read State.reset.engine.img i = some (Config.freeByte i)) ∧
  (∀ i, 256 ≤ i → Memory.read State.reset.engine.img i = none) ∧
  State.reset.engine.STATUS = { DONE := false, MATCH := false, ILLCMD := false, AERR := false } ∧
  State.reset.engine.CSUM_OLD = 0x0000#16 ∧ State.reset.engine.CSUM_NEW = 0x0000#16 ∧
  State.reset.script = [] ∧ State.reset.response = none

/-- The invariant holds at reset and at every launch (spec/10_state.md section 8). -/
def Obligations.LaunchMeetsInvariant : Prop :=
  State.reset.Inv ∧ ∀ (c : Config) (image : List Byte) (s : State), launch c image = .ok s → s.Inv

/-! The step. -/

/-- spec/10_state.md section 8 (Invariants): every step keeps the legal LEN, the canonical image of LEN bytes, the
agreement of the results with the image while DONE, and MATCH only beside DONE. -/
def Obligations.StepKeepsInvariant : Prop :=
  ∀ s t : State, s.Inv → step s = .next t → t.Inv

/-- A step takes the host's next encoded transaction off the script and is exec of what it decodes to
(spec/00_scope.md section 5). -/
def Obligations.StepRunsDecodedTransaction : Prop :=
  ∀ (s : State) (e : Encoded) (rest : List Encoded) (i : Instr),
    s.config.legal = true → s.script = e :: rest → decode e = .ok i →
      step s = exec i { s with script := rest }

/-- A word of the opcode table put first runs as its instruction, and nothing else of the state is changed for it. -/
def Obligations.TableWordRunsNext : Prop :=
  ∀ (s : State) (nbits w : Nat) (i : Instr), s.config.legal = true → decodeTableWord nbits w = some i →
    step (s.withFetchWord nbits w) = exec i s

/-- spec/93_implementation_defined.md I10: a descriptor that spells no transaction is refused at the decoder. -/
def Obligations.StepRefusesWhatSpellsNoTransaction : Prop :=
  ∀ (s : State) (d : Descriptor) (rest : List Encoded) (err : DecodeError),
    s.config.legal = true → s.script = .descriptor d :: rest → decode (.descriptor d) = .error err →
      step s = .refused (.noTransaction err)

/-- spec/60_exceptions.md section 5: between transactions the engine is idle and holds its state; that a host with nothing
to issue leaves the whole state as it is, is the model's choice (log 5). -/
def Obligations.IdleEngineHoldsState : Prop :=
  ∀ s : State, s.config.legal = true → s.script = [] → step s = .next s

/-- spec/70_reset_and_hazards.md section 4 and spec/20_memory.md section 6: whatever the host issues, from every sound
state and every script of transactions, each transaction completes, so the whole script runs to its end. -/
def Obligations.WholeScriptRunsToItsEnd : Prop :=
  ∀ s : State, s.Inv → s.ScriptDecodes →
    ∃ t : State, Sys2Proof.core.run s.script.length s = .next t ∧ t.script = [] ∧ t.Inv ∧ t.config = s.config

/-! Encoding. -/

/-- Decoding an encoded instruction gives it back, for every instruction and every operand
(spec/30_encoding.md sections 1 and 2). -/
def Obligations.DecodeOfEncodeIsTheInstruction : Prop :=
  ∀ i : Instr, decode (encode i) = .ok i

/-- A descriptor that decodes is the encoding of what it decodes to: no transaction has two spellings, and no descriptor
spells a command word (spec/30_encoding.md section 2). -/
def Obligations.EncodeOfDecodeIsTheDescriptor : Prop :=
  ∀ (d : Descriptor) (i : Instr), decode (.descriptor d) = .ok i → encode i = .descriptor d

/-- spec/30_encoding.md R56: which descriptors spell which transaction, field by field, that every other one is refused
and never reaches the engine, and that an index or an offset that does not exist does reach it and raises a bus error. -/
def Obligations.DescriptorDecodesFieldByField : Prop :=
  ∀ d : Descriptor,
    (∀ i, decode (.descriptor d) = .ok (.imgRd i) ↔
      d.toNat / 2 ^ 30 = 0 ∧ d.toNat / 2 ^ 24 % 2 ^ 6 = 0 ∧ d.toNat % 2 ^ 8 = 0 ∧ i.toNat = d.toNat / 2 ^ 8 % 2 ^ 16) ∧
    (∀ i b, decode (.descriptor d) = .ok (.imgWr i b) ↔
      d.toNat / 2 ^ 30 = 1 ∧ d.toNat / 2 ^ 24 % 2 ^ 6 = 0 ∧ i.toNat = d.toNat / 2 ^ 8 % 2 ^ 16 ∧
        b.toNat = d.toNat % 2 ^ 8) ∧
    (∀ off, decode (.descriptor d) = .ok (.regRd off) ↔
      d.toNat / 2 ^ 30 = 2 ∧ d.toNat / 2 ^ 19 % 2 ^ 11 = 0 ∧ d.toNat % 2 ^ 16 = 0 ∧
        off.toNat = d.toNat / 2 ^ 16 % 2 ^ 3) ∧
    (∀ off v, decode (.descriptor d) = .ok (.regWr off v) ↔
      d.toNat / 2 ^ 30 = 3 ∧ d.toNat / 2 ^ 19 % 2 ^ 11 = 0 ∧ off.toNat = d.toNat / 2 ^ 16 % 2 ^ 3 ∧
        v.toNat = d.toNat % 2 ^ 16) ∧
    decode (.descriptor d) ≠ .ok .nop ∧ decode (.descriptor d) ≠ .ok .fix ∧
    ∀ (s : State) (rest : List Encoded), s.config.legal = true → s.script = .descriptor d :: rest →
      (∀ err, decode (.descriptor d) = .error err → step s = .refused (.noTransaction err)) ∧
      (∀ i : Instr, decode (.descriptor d) = .ok i →
        ((∃ n, s.config.LEN ≤ n.toNat ∧ (i = .imgRd n ∨ ∃ b, i = .imgWr n b)) ∨
          (∃ off, 5 ≤ off.toNat ∧ (i = .regRd off ∨ ∃ v, i = .regWr off v))) →
        ∃ t code, step s = .next t ∧ t.response = some (.busError code))

/-- spec/30_encoding.md R54: the command decode table, total on the 65536 command words. -/
def Obligations.CommandWordsDecode : Prop :=
  ∀ w : Word,
    (decodeCommand w = .nop ↔ w = 0x0000#16) ∧ (decodeCommand w = .fix ↔ w = 0x0001#16) ∧
    ∀ v, decodeCommand w = .reserved v ↔ v = w ∧ 0x0002 ≤ w.toNat

/-- A form that fits a row of spec/opcode_table.json (its bits and its match under its mask) decodes to an instruction of
that row; hence no form fits two rows (spec/30_encoding.md section 5). -/
def Obligations.TableRowsDecodeToTheirInstruction : Prop :=
  ∀ (i : Instr) (e : Encoded), i.row.fits e = true → ∃ j, decode e = .ok j ∧ j.row = i.row

/-- Descriptors written out in spec/95_test_vectors.md section 2.5 (V40 to V51) and the two command words decode as it
says. -/
def Obligations.WrittenOutWordsDecode : Prop :=
  decode (.command 0x0000#16) = .ok .nop ∧ decode (.command 0x0001#16) = .ok .fix ∧
  decode (.descriptor 0x00000000#32) = .ok (.imgRd 0) ∧ decode (.descriptor 0x0000FF00#32) = .ok (.imgRd 255) ∧
  decode (.descriptor 0x00010000#32) = .ok (.imgRd 256) ∧ decode (.descriptor 0x4000FF12#32) = .ok (.imgWr 255 0x12#8) ∧
  decode (.descriptor 0x80010000#32) = .ok (.regRd 1) ∧ decode (.descriptor 0xC0000001#32) = .ok (.regWr 0 0x0001#16) ∧
  ∀ d ∈ [0x00000001#32, 0x01000000#32, 0x80080000#32, 0x80010001#32, 0xC0080000#32, 0xFFFFFFFF#32],
    ∃ err, decode (.descriptor d) = .error err

/-! Image transactions. -/

/-- spec/20_memory.md R39: an image read responds with the byte at the index and changes nothing; past the image it is a
bus error. -/
def Obligations.ImageReadResult : Prop :=
  ∀ (s : State) (i : Index), s.Sound →
    (i.toNat < s.config.LEN →
      ∃ b, Memory.read s.engine.img i.toNat = some b ∧ exec (.imgRd i) s = .next { s with response := some (.byte b) }) ∧
    (s.config.LEN ≤ i.toNat →
      exec (.imgRd i) s = .next { s with
        engine := { s.engine with STATUS := { s.engine.STATUS with AERR := true } }
        response := some (.busError .imgRange) })

/-- spec/20_memory.md R40: an accepted image write stores the byte there and nowhere else, clears DONE and MATCH, and
changes nothing else; past the image it is a bus error and stores nothing. -/
def Obligations.ImageWriteResult : Prop :=
  ∀ (s : State) (i : Index) (b : Byte), s.Sound →
    (i.toNat < s.config.LEN →
      ∃ m, exec (.imgWr i b) s = .next { s with
          engine := { s.engine with img := m, STATUS := { s.engine.STATUS with DONE := false, MATCH := false } }
          response := some .done } ∧
        ∀ j, Memory.read m j = if j = i.toNat then some b else Memory.read s.engine.img j) ∧
    (s.config.LEN ≤ i.toNat →
      exec (.imgWr i b) s = .next { s with
        engine := { s.engine with STATUS := { s.engine.STATUS with AERR := true } }
        response := some (.busError .imgRange) })

/-- A byte written to an existing index is what the next read of that index returns (spec/20_memory.md section 3; V30 of
spec/95_test_vectors.md). -/
def Obligations.WrittenByteReadsBack : Prop :=
  ∀ (s : State) (i : Index) (b : Byte), s.Sound → i.toNat < s.config.LEN →
    ∃ t u, exec (.imgWr i b) s = .next t ∧ exec (.imgRd i) t = .next u ∧ u.response = some (.byte b) ∧
      u.engine = t.engine

/-! Register transactions. -/

/-- spec/20_memory.md R41: what each register offset reads as, without side effect; 5 to 7 are a bus error. -/
def Obligations.RegisterReadResult : Prop :=
  ∀ s : State,
    exec (.regRd 0) s = .next { s with response := some (.word 0x0000#16) } ∧
    (∃ w : Word, exec (.regRd 1) s = .next { s with response := some (.word w) } ∧
      w.getLsbD 0 = s.engine.STATUS.DONE ∧ w.getLsbD 1 = s.engine.STATUS.MATCH ∧
      w.getLsbD 8 = s.engine.STATUS.ILLCMD ∧ w.getLsbD 9 = s.engine.STATUS.AERR ∧
      ∀ k, k ≠ 0 → k ≠ 1 → k ≠ 8 → k ≠ 9 → w.getLsbD k = false) ∧
    exec (.regRd 2) s = .next { s with response := some (.word s.engine.CSUM_OLD) } ∧
    exec (.regRd 3) s = .next { s with response := some (.word s.engine.CSUM_NEW) } ∧
    (∃ w : Word, exec (.regRd 4) s = .next { s with response := some (.word w) } ∧
      (s.config.legal = true → w.toNat = s.config.LEN)) ∧
    ∀ off : Offset, 5 ≤ off.toNat →
      exec (.regRd off) s = .next { s with
        engine := { s.engine with STATUS := { s.engine.STATUS with AERR := true } }
        response := some (.busError .regUnassigned) }

/-- spec/10_state.md R24: the reserved STATUS bits read as 0 in every state and ignore writes. -/
def Obligations.ReservedStatusBitsReadZeroIgnoreWrites : Prop :=
  (∀ s t : State, ∀ w : Word, exec (.regRd 1) s = .next t → t.response = some (.word w) →
    ∀ k, 2 ≤ k ∧ k ≤ 7 ∨ 10 ≤ k → w.getLsbD k = false) ∧
  ∀ (s : State) (v v' : Word), (∀ k < 16, k ≤ 1 ∨ k = 8 ∨ k = 9 → v.getLsbD k = v'.getLsbD k) →
    exec (.regWr 1 v) s = exec (.regWr 1 v') s

/-- spec/41_control.md R80: NOP has no effect, as a command word and as the write that carries it. -/
def Obligations.NopResult : Prop :=
  ∀ s : State,
    exec .nop s = .next { s with response := some .done } ∧
    exec (.regWr 0 0x0000#16) s = .next { s with response := some .done }

/-- spec/41_control.md R81: a reserved command sets ILLCMD, completes normally and does nothing else. -/
def Obligations.ReservedCommandResult : Prop :=
  ∀ (s : State) (v : Word), 0x0002 ≤ v.toNat →
    exec (.regWr 0 v) s = .next { s with
      engine := { s.engine with STATUS := { s.engine.STATUS with ILLCMD := true } }
      response := some .done }

/-- spec/10_state.md R18: a write to CMD issues the command, all 16 bits significant; a read returns 0 and has no
effect. -/
def Obligations.CommandWriteIssuesTheCommand : Prop :=
  ∀ s : State,
    exec (.regWr 0 0x0000#16) s = exec .nop s ∧
    exec (.regWr 0 0x0001#16) s = exec .fix s ∧
    (∀ v : Word, v ≠ 0x0000#16 → v ≠ 0x0001#16 →
      exec (.regWr 0 v) s = .next { s with
        engine := { s.engine with STATUS := { s.engine.STATUS with ILLCMD := true } }
        response := some .done }) ∧
    exec (.regRd 0) s = .next { s with response := some (.word 0x0000#16) }

/-- spec/41_control.md R82: a STATUS write clears ILLCMD by bit 8 and AERR by bit 9, sets nothing and changes nothing
else. -/
def Obligations.StatusWriteResult : Prop :=
  ∀ (s : State) (v : Word),
    exec (.regWr 1 v) s = .next { s with
      engine := { s.engine with STATUS := { s.engine.STATUS with
        ILLCMD := if v.getLsbD 8 then false else s.engine.STATUS.ILLCMD
        AERR := if v.getLsbD 9 then false else s.engine.STATUS.AERR } }
      response := some .done }

/-- spec/41_control.md R83: a write to CSUM_OLD, CSUM_NEW or LEN has no effect and raises no error. -/
def Obligations.ReadOnlyWriteResult : Prop :=
  ∀ (s : State) (off : Offset) (v : Word), 2 ≤ off.toNat → off.toNat ≤ 4 →
    exec (.regWr off v) s = .next { s with response := some .done }

/-- A write to an unassigned offset is a bus error, runs no command and changes nothing but AERR
(spec/20_memory.md section 3; V36 of spec/95_test_vectors.md). -/
def Obligations.UnassignedRegisterWriteResult : Prop :=
  ∀ (s : State) (off : Offset) (v : Word), 5 ≤ off.toNat →
    exec (.regWr off v) s = .next { s with
      engine := { s.engine with STATUS := { s.engine.STATUS with AERR := true } }
      response := some (.busError .regUnassigned) }

/-! Errors. -/

/-- spec/60_exceptions.md R87: whatever the transaction, one that ends in the error response changed AERR and nothing
else. -/
def Obligations.BusErrorChangesOnlyAerr : Prop :=
  ∀ (i : Instr) (s t : State) (code : BusErrorCode), exec i s = .next t → t.response = some (.busError code) →
    t = { s with
      engine := { s.engine with STATUS := { s.engine.STATUS with AERR := true } }
      response := some (.busError code) }

/-- spec/60_exceptions.md R86: the complete list of error events: exactly which transactions get which bus error, with AERR
set, that a reserved command completes normally with ILLCMD set, and that nothing else sets either bit. -/
def Obligations.ErrorEventsAreTheListedOnes : Prop :=
  ∀ (i : Instr) (s t : State), exec i s = .next t →
    (t.response = some (.busError .imgRange) ↔
      ∃ n, s.config.LEN ≤ n.toNat ∧ (i = .imgRd n ∨ ∃ b, i = .imgWr n b)) ∧
    (t.response = some (.busError .regUnassigned) ↔
      ∃ off, 5 ≤ off.toNat ∧ (i = .regRd off ∨ ∃ v, i = .regWr off v)) ∧
    ((∃ code, t.response = some (.busError code)) → t.engine.STATUS.AERR = true) ∧
    (t.engine.STATUS.AERR = true → s.engine.STATUS.AERR = false → ∃ code, t.response = some (.busError code)) ∧
    (∀ v : Word, i = .regWr 0 v → 0x0002 ≤ v.toNat → t.response = some .done ∧ t.engine.STATUS.ILLCMD = true) ∧
    (t.engine.STATUS.ILLCMD = true → s.engine.STATUS.ILLCMD = false → ∃ v : Word, i = .regWr 0 v ∧ 0x0002 ≤ v.toNat)

/-- spec/70_reset_and_hazards.md section 3: no error leaves the engine unable to go on: every transaction completes in
every state. -/
def Obligations.EveryTransactionCompletes : Prop :=
  ∀ (i : Instr) (s : State), ∃ t, exec i s = .next t

/-- spec/10_state.md section 6: nothing in the engine reads a flag to decide what to do: two states that differ in STATUS
only give the same image, the same checksum registers and, but for the read of STATUS, the same response. -/
def Obligations.FlagsDecideNothing : Prop :=
  ∀ (i : Instr) (s t s' t' : State), s'.config = s.config →
    s'.engine = { s.engine with STATUS := s'.engine.STATUS } → exec i s = .next t → exec i s' = .next t' →
      t'.engine.img = t.engine.img ∧ t'.engine.CSUM_OLD = t.engine.CSUM_OLD ∧
      t'.engine.CSUM_NEW = t.engine.CSUM_NEW ∧ (i ≠ .regRd 1 → t'.response = t.response)

/-! The checksum datapath. -/

/-- spec/40_checksum.md R64 and R65: payload words and the stored checksum are little-endian pairs of bytes. -/
def Obligations.WordsAreLittleEndian : Prop :=
  (∀ (m : Memory) (k : Nat),
    (payloadWord m k).toNat = (Memory.byteAt m (2 * k)).toNat + 256 * (Memory.byteAt m (2 * k + 1)).toNat) ∧
  ∀ (c : Config) (m : Memory), c.legal = true →
    (stored c m).toNat = (Memory.byteAt m (c.LEN - 2)).toNat + 256 * (Memory.byteAt m (c.LEN - 1)).toNat

/-- spec/40_checksum.md R66: XOR first, then bit 15 goes to bit 0 and bit j to bit j+1. -/
def Obligations.ChecksumStepXorsThenRotates : Prop :=
  ∀ acc w : Word,
    (checksumStep acc w).getLsbD 0 = (w ^^^ acc).getLsbD 15 ∧
    ∀ j < 15, (checksumStep acc w).getLsbD (j + 1) = (w ^^^ acc).getLsbD j

/-- spec/40_checksum.md R67: the computed checksum is the fold of the step over the payload words, in ascending order
from the seed 0xAAAA, and no byte from LEN-2 on is read. -/
def Obligations.ChecksumIsTheSeededFoldOverThePayload : Prop :=
  ∀ (c : Config) (m : Memory),
    (∃ acc : Nat → Word, acc 0 = 0xAAAA#16 ∧
      (∀ k < c.LEN / 2 - 1, acc (k + 1) = checksumStep (acc k) (payloadWord m k)) ∧
      compute c m = acc (c.LEN / 2 - 1)) ∧
    ∀ m' : Memory, (∀ i, i + 2 < c.LEN → Memory.byteAt m' i = Memory.byteAt m i) → compute c m' = compute c m

/-- spec/40_checksum.md section 2, the arithmetic laws: sixteen rotations by 1 are the identity, and the step is one to one
in the accumulator and in the word. -/
def Obligations.RotationAndStepAreOneToOne : Prop :=
  (∀ v : Word, Nat.repeat (fun x => rotl16 x 1) 16 v = v) ∧
  (∀ acc acc' w : Word, checksumStep acc w = checksumStep acc' w → acc = acc') ∧
  ∀ acc w w' : Word, checksumStep acc w = checksumStep acc w' → w = w'

/-! FIX. -/

/-- spec/40_checksum.md R71 and R72: FIX, its registers, its flags, and every byte of the image: the two checksum bytes on
a mismatch, none otherwise. -/
def Obligations.FixResult : Prop :=
  ∀ s : State, s.Sound →
    ∃ m, exec .fix s = .next { s with
        engine :=
          { img := m
            STATUS := { s.engine.STATUS with
              DONE := true
              MATCH := decide (compute s.config s.engine.img = stored s.config s.engine.img) }
            CSUM_OLD := stored s.config s.engine.img
            CSUM_NEW := compute s.config s.engine.img }
        response := some .done } ∧
      (compute s.config s.engine.img = stored s.config s.engine.img → m = s.engine.img) ∧
      (compute s.config s.engine.img ≠ stored s.config s.engine.img →
        ∀ j, Memory.read m j =
          if j = s.config.LEN - 2 then some ((compute s.config s.engine.img).extractLsb' 0 8)
          else if j = s.config.LEN - 1 then some ((compute s.config s.engine.img).extractLsb' 8 8)
          else Memory.read s.engine.img j)

/-- spec/40_checksum.md section 3, the properties that follow: after FIX the stored, the computed and the reported
checksum are one value, the computed checksum of the image before; only the last two bytes may have changed; and a second
FIX changes nothing but CSUM_OLD and MATCH, which then report the match. -/
def Obligations.FixMakesTheImageAFixedPoint : Prop :=
  ∀ s t : State, s.Sound → exec .fix s = .next t →
    stored t.config t.engine.img = compute t.config t.engine.img ∧
    compute t.config t.engine.img = compute s.config s.engine.img ∧
    t.engine.CSUM_NEW = compute t.config t.engine.img ∧
    (∀ i, i ≠ s.config.LEN - 2 → i ≠ s.config.LEN - 1 → Memory.read t.engine.img i = Memory.read s.engine.img i) ∧
    exec .fix t = .next { t with
      engine := { t.engine with STATUS := { t.engine.STATUS with MATCH := true }, CSUM_OLD := t.engine.CSUM_NEW } }

/-- spec/40_checksum.md R77: each FIX starts from the seed 0xAAAA, and its result is a function of img alone: what STATUS,
CSUM_OLD and CSUM_NEW held before plays no part. -/
def Obligations.FixReadsTheImageAlone : Prop :=
  ∀ s s' t t' : State, s'.config = s.config → s'.engine.img = s.engine.img →
    exec .fix s = .next t → exec .fix s' = .next t' →
      t'.engine.img = t.engine.img ∧ t'.engine.CSUM_OLD = t.engine.CSUM_OLD ∧
      t'.engine.CSUM_NEW = t.engine.CSUM_NEW ∧ t'.engine.STATUS.DONE = t.engine.STATUS.DONE ∧
      t'.engine.STATUS.MATCH = t.engine.STATUS.MATCH ∧
      ∃ acc : Nat → Word, acc 0 = 0xAAAA#16 ∧
        (∀ k < s.config.LEN / 2 - 1, acc (k + 1) = checksumStep (acc k) (payloadWord s.engine.img k)) ∧
        t.engine.CSUM_NEW = acc (s.config.LEN / 2 - 1)

/-- The payload alone decides the repaired image: of two sound states whose payload bytes agree, FIX makes one image
(spec/70_reset_and_hazards.md section 2; spec/40_checksum.md section 3). -/
def Obligations.PayloadDecidesTheRepairedImage : Prop :=
  ∀ s s' t t' : State, s.Sound → s'.Sound → s'.config = s.config →
    (∀ i, i + 2 < s.config.LEN → Memory.read s'.engine.img i = Memory.read s.engine.img i) →
    exec .fix s = .next t → exec .fix s' = .next t' →
      t'.engine.img = t.engine.img ∧ t'.engine.CSUM_NEW = t.engine.CSUM_NEW

/-- spec/40_checksum.md R79: with LEN = 256, an all-zero payload and a stored checksum of zero, FIX finds 0x5555, writes
0x55 at 254 and at 255, and leaves CSUM_OLD = 0, CSUM_NEW = 0x5555 and STATUS = 0x0001. -/
def Obligations.AllZeroImageGetsChecksum5555 : Prop :=
  ∀ s : State, s.Sound → s.config.LEN = 256 → (∀ i < 256, Memory.read s.engine.img i = some 0x00#8) →
    s.engine.STATUS.ILLCMD = false → s.engine.STATUS.AERR = false →
    compute s.config s.engine.img = rotl16 0xAAAA#16 15 ∧ compute s.config s.engine.img = 0x5555#16 ∧
    ∃ t, exec .fix s = .next t ∧
      Memory.read t.engine.img 254 = some 0x55#8 ∧ Memory.read t.engine.img 255 = some 0x55#8 ∧
      t.engine.CSUM_OLD = 0x0000#16 ∧ t.engine.CSUM_NEW = 0x5555#16 ∧
      exec (.regRd 1) t = .next { t with response := some (.word 0x0001#16) }

/-! Whole-machine rules: who writes what. -/

/-- spec/10_state.md R20: DONE is set by FIX, cleared by an accepted image write and by reset, and changed by nothing
else. -/
def Obligations.OnlyFixSetsDone : Prop :=
  (∀ (c : Config) (m : Memory), (State.afterReset c m).engine.STATUS.DONE = false) ∧
  ∀ (i : Instr) (s t : State), exec i s = .next t →
    ((i = .fix ∨ i = .regWr 0 0x0001#16) → t.engine.STATUS.DONE = true) ∧
    (∀ n b, i = .imgWr n b → n.toNat < s.config.LEN → t.engine.STATUS.DONE = false) ∧
    (i ≠ .fix → i ≠ .regWr 0 0x0001#16 → (∀ n b, i = .imgWr n b → s.config.LEN ≤ n.toNat) →
      t.engine.STATUS.DONE = s.engine.STATUS.DONE)

/-- spec/10_state.md R21: MATCH is written by FIX (1 exactly when the computed checksum equals the stored one read before
any mutation), cleared by an accepted image write and by reset, and changed by nothing else. -/
def Obligations.OnlyFixWritesMatch : Prop :=
  (∀ (c : Config) (m : Memory), (State.afterReset c m).engine.STATUS.MATCH = false) ∧
  ∀ (i : Instr) (s t : State), exec i s = .next t →
    ((i = .fix ∨ i = .regWr 0 0x0001#16) →
      (t.engine.STATUS.MATCH = true ↔ compute s.config s.engine.img = stored s.config s.engine.img)) ∧
    (∀ n b, i = .imgWr n b → n.toNat < s.config.LEN → t.engine.STATUS.MATCH = false) ∧
    (i ≠ .fix → i ≠ .regWr 0 0x0001#16 → (∀ n b, i = .imgWr n b → s.config.LEN ≤ n.toNat) →
      t.engine.STATUS.MATCH = s.engine.STATUS.MATCH)

/-- spec/10_state.md R22: ILLCMD is 1 after a transaction exactly when it was a reserved command, or ILLCMD was 1 before
and the transaction is no STATUS write with bit 8 set; reset clears it. -/
def Obligations.IllcmdIsStickyUntilCleared : Prop :=
  (∀ (c : Config) (m : Memory), (State.afterReset c m).engine.STATUS.ILLCMD = false) ∧
  ∀ (i : Instr) (s t : State), exec i s = .next t →
    (t.engine.STATUS.ILLCMD = true ↔
      (∃ v : Word, i = .regWr 0 v ∧ 0x0002 ≤ v.toNat) ∨
      (s.engine.STATUS.ILLCMD = true ∧ ∀ v, i = .regWr 1 v → v.getLsbD 8 = false))

/-- spec/10_state.md R23: AERR is 1 after a transaction exactly when it raised a bus error, or AERR was 1 before and the
transaction is no STATUS write with bit 9 set; reset clears it. -/
def Obligations.AerrIsStickyUntilCleared : Prop :=
  (∀ (c : Config) (m : Memory), (State.afterReset c m).engine.STATUS.AERR = false) ∧
  ∀ (i : Instr) (s t : State), exec i s = .next t →
    (t.engine.STATUS.AERR = true ↔
      (∃ code, t.response = some (.busError code)) ∨
      (s.engine.STATUS.AERR = true ∧ ∀ v, i = .regWr 1 v → v.getLsbD 9 = false))

/-- spec/10_state.md R25 and R26: CSUM_OLD and CSUM_NEW are written by FIX, match or not, and by reset, and by nothing
else; host writes to them are ignored without error. -/
def Obligations.OnlyFixWritesChecksumRegisters : Prop :=
  (∀ (c : Config) (m : Memory),
    (State.afterReset c m).engine.CSUM_OLD = 0x0000#16 ∧ (State.afterReset c m).engine.CSUM_NEW = 0x0000#16) ∧
  ∀ (i : Instr) (s t : State), exec i s = .next t →
    ((i = .fix ∨ i = .regWr 0 0x0001#16) →
      t.engine.CSUM_OLD = stored s.config s.engine.img ∧ t.engine.CSUM_NEW = compute s.config s.engine.img) ∧
    (i ≠ .fix → i ≠ .regWr 0 0x0001#16 →
      t.engine.CSUM_OLD = s.engine.CSUM_OLD ∧ t.engine.CSUM_NEW = s.engine.CSUM_NEW) ∧
    (∀ v, i = .regWr 2 v ∨ i = .regWr 3 v → t = { s with response := some .done })

/-- spec/10_state.md R27: LEN reads as the configuration parameter, writes to it are ignored without error, and neither a
transaction nor reset changes it. -/
def Obligations.LenRegisterIsConstant : Prop :=
  (∀ (c : Config) (m : Memory), (State.afterReset c m).config = c) ∧
  ∀ (i : Instr) (s t : State), exec i s = .next t →
    t.config = s.config ∧
    exec (.regRd 4) t = .next { t with response := some (.word (BitVec.ofNat 16 s.config.LEN)) } ∧
    ∀ v, exec (.regWr 4 v) t = .next { t with response := some .done }

/-- spec/10_state.md section 3: a byte of the image changes only where an accepted image write puts one, or, under FIX, at
LEN-2 and LEN-1 and only on a mismatch; and no transaction makes an index exist or cease to. -/
def Obligations.ImageBytesChangeOnlyWhereWritten : Prop :=
  ∀ (i : Instr) (s t : State), s.Sound → exec i s = .next t → ∀ j : Nat,
    ((Memory.read t.engine.img j).isSome = true ↔ j < s.config.LEN) ∧
    (Memory.read t.engine.img j ≠ Memory.read s.engine.img j →
      (∃ n b, i = .imgWr n b ∧ n.toNat < s.config.LEN ∧ j = n.toNat) ∨
      ((i = .fix ∨ i = .regWr 0 0x0001#16) ∧ (j = s.config.LEN - 2 ∨ j = s.config.LEN - 1) ∧
        compute s.config s.engine.img ≠ stored s.config s.engine.img))

/-- The frame of every transaction that stores nothing (NOP, both reads, and a register write that does not run FIX):
every byte of the image, both checksum registers, DONE and MATCH, the configuration and the rest of the script are
unchanged (spec/10_state.md section 6). -/
def Obligations.TransactionsThatStoreNothingFrame : Prop :=
  ∀ (i : Instr) (s t : State), exec i s = .next t →
    (i = .nop ∨ (∃ n, i = .imgRd n) ∨ (∃ off, i = .regRd off) ∨
      ∃ off v, i = .regWr off v ∧ ¬ (off = 0 ∧ v = 0x0001#16)) →
    (∀ j, Memory.read t.engine.img j = Memory.read s.engine.img j) ∧
    t.engine.CSUM_OLD = s.engine.CSUM_OLD ∧ t.engine.CSUM_NEW = s.engine.CSUM_NEW ∧
    t.engine.STATUS.DONE = s.engine.STATUS.DONE ∧ t.engine.STATUS.MATCH = s.engine.STATUS.MATCH ∧
    t.config = s.config ∧ t.script = s.script

/-- spec/20_memory.md section 4: a read of an existing address changes no state of the engine, and repeated it returns
the same value. -/
def Obligations.ReadsHaveNoSideEffectAndRepeat : Prop :=
  ∀ (i : Instr) (s t u : State),
    ((∃ n, i = .imgRd n ∧ n.toNat < s.config.LEN) ∨ (∃ off, i = .regRd off ∧ off.toNat ≤ 4)) →
    exec i s = .next t → exec i t = .next u →
      t.engine = s.engine ∧ u.engine = s.engine ∧ u.response = t.response

/-! Host scripts and flows. -/

/-- spec/30_encoding.md R62: a line is accepted exactly when its numbers fit their fields; an index past the image or an
offset 5 to 7 that fits is accepted and gives a bus error at the engine. Two lines that R62 leaves open, an `ld.img`
without bytes and one whose last index does not fit, are in RefusedLinesFollowTheModelsChoices. -/
def Obligations.ScriptLineAcceptedExactlyWhenNumbersFit : Prop :=
  ∀ i b off v lo hi : Nat, ∀ bs : List Nat,
    ((∃ is, assembleLine (.basic (.rdImg i)) = .ok is) ↔ i ≤ 65535) ∧
    ((∃ is, assembleLine (.basic (.wrImg i b)) = .ok is) ↔ i ≤ 65535 ∧ b ≤ 255) ∧
    ((∃ is, assembleLine (.basic (.rdReg off)) = .ok is) ↔ off ≤ 7) ∧
    ((∃ is, assembleLine (.basic (.wrReg off v)) = .ok is) ↔ off ≤ 7 ∧ v ≤ 65535) ∧
    (∀ l ∈ [ScriptLine.nop, .fix, .clrerr, .rdStatus, .rdOld, .rdNew, .rdLen], ∃ is, assembleLine l = .ok is) ∧
    (bs ≠ [] → i + bs.length ≤ 65536 → (∀ x ∈ bs, x ≤ 255) → ∃ is, assembleLine (.ldImg i bs) = .ok is) ∧
    ((65535 < i ∨ ∃ x ∈ bs, 255 < x) → ∃ err, assembleLine (.ldImg i bs) = .error err) ∧
    ((∃ is, assembleLine (.fill lo hi b) = .ok is) ↔ lo ≤ 65535 ∧ hi ≤ 65535 ∧ b ≤ 255) ∧
    (∀ (l : ScriptLine) (err : ScriptError), assembleLine l = .error err → err = .doesNotFit l) ∧
    ∀ s : State,
      (s.config.LEN ≤ i → i ≤ 65535 → b ≤ 255 → ∀ l : BasicLine, l = .rdImg i ∨ l = .wrImg i b →
        ∃ x t, assembleLine (.basic l) = .ok [x] ∧ exec x s = .next t ∧ t.response = some (.busError .imgRange)) ∧
      (5 ≤ off → off ≤ 7 → v ≤ 65535 → ∀ l : BasicLine, l = .rdReg off ∨ l = .wrReg off v →
        ∃ x t, assembleLine (.basic l) = .ok [x] ∧ exec x s = .next t ∧ t.response = some (.busError .regUnassigned))

/-- The descriptor of each line that is one transaction, as a number (spec/30_encoding.md section 4). -/
def Obligations.ScriptLinesSpellTheirDescriptors : Prop :=
  ∀ i b off v : Nat, i ≤ 65535 → b ≤ 255 → off ≤ 7 → v ≤ 65535 →
    (∃ x d, assembleLine (.basic (.rdImg i)) = .ok [x] ∧ encode x = .descriptor d ∧
      d.toNat = 0x00000000 + i <<< 8) ∧
    (∃ x d, assembleLine (.basic (.wrImg i b)) = .ok [x] ∧ encode x = .descriptor d ∧
      d.toNat = 0x40000000 + i <<< 8 + b) ∧
    (∃ x d, assembleLine (.basic (.rdReg off)) = .ok [x] ∧ encode x = .descriptor d ∧
      d.toNat = 0x80000000 + off <<< 16) ∧
    (∃ x d, assembleLine (.basic (.wrReg off v)) = .ok [x] ∧ encode x = .descriptor d ∧
      d.toNat = 0xC0000000 + off <<< 16 + v)

/-- spec/30_encoding.md R61: the expansion of every pseudo-instruction. -/
def Obligations.PseudoInstructionsExpand : Prop :=
  (assembleLine .nop).map (List.map encode) = .ok [.descriptor 0xC0000000#32] ∧
  (assembleLine .fix).map (List.map encode) = .ok [.descriptor 0xC0000001#32] ∧
  (assembleLine .clrerr).map (List.map encode) = .ok [.descriptor 0xC0010300#32] ∧
  (assembleLine .rdStatus).map (List.map encode) = .ok [.descriptor 0x80010000#32] ∧
  (assembleLine .rdOld).map (List.map encode) = .ok [.descriptor 0x80020000#32] ∧
  (assembleLine .rdNew).map (List.map encode) = .ok [.descriptor 0x80030000#32] ∧
  (assembleLine .rdLen).map (List.map encode) = .ok [.descriptor 0x80040000#32] ∧
  (∀ (i : Nat) (bs : List Nat), bs ≠ [] → (∀ b ∈ bs, b ≤ 255) → i + bs.length ≤ 65536 →
    ∃ is, assembleLine (.ldImg i bs) = .ok is ∧ is.length = bs.length ∧
      ∀ (k : Nat) (b : Nat), bs[k]? = some b → is[k]? = some (.imgWr (BitVec.ofNat 16 (i + k)) (BitVec.ofNat 8 b))) ∧
  ∀ lo hi b : Nat, lo ≤ 65535 → hi ≤ 65535 → b ≤ 255 →
    ∃ is, assembleLine (.fill lo hi b) = .ok is ∧ is.length = hi + 1 - lo ∧
      ∀ k, lo + k ≤ hi → is[k]? = some (.imgWr (BitVec.ofNat 16 (lo + k)) (BitVec.ofNat 8 b))

/-- spec/70_reset_and_hazards.md section 3: the model's Flash flow (log 15) repairs before it erases, erases before it
writes, and ends with the device reset; it holds one FIX. -/
def Obligations.FlashFlowKeepsItsOrder : Prop :=
  ∀ (len : Nat) (input : List Byte) (acts : List HostAction), flashFlow len input = .ok acts →
    KeepsFlashOrder acts = true ∧
    (acts.filter fun a => match a with
      | .transaction i => runsFix i
      | .eraseDevice | .writeDevice | .resetDevice => false).length = 1

/-- spec/70_reset_and_hazards.md section 3: a short input stops the Flash flow with a short-read failure and no action on
the device; an input that is long enough does not stop it. -/
def Obligations.ShortInputStopsTheFlashFlow : Prop :=
  ∀ (len : Nat) (input : List Byte),
    (input.length < len → flashFlow len input = .error .shortRead) ∧
    (len ≤ input.length → ∃ acts, flashFlow len input = .ok acts)

/-- spec/70_reset_and_hazards.md section 3: staging a backup image issues no FIX. -/
def Obligations.BackupStagingIssuesNoFix : Prop :=
  ∀ image : List Byte, IssuesNoFix (backupStaging image) = true

/-! Beside the statements above. -/

/-- The model's reading of a reserved command word (log 6): it is the REG_WR to CMD that carries it
(spec/30_encoding.md sections 1 and 3). -/
def Obligations.ReservedCommandWordIsItsRegisterWrite : Prop :=
  ∀ w : Word, 0x0002 ≤ w.toNat → decode (.command w) = .ok (.regWr 0 w)

/-- The model's choices where spec/30_encoding.md section 4 is silent (log 14, log 16): a line that is refused refuses its
whole script, and then nothing is issued; an `ld.img` without bytes, or one that runs past index 65535, is refused whole.
An accepted script is issued line by line after what the host still has, and changes nothing else. -/
def Obligations.RefusedLinesFollowTheModelsChoices : Prop :=
  (∀ (s : State) (ls : List ScriptLine),
    ((∃ t, s.issueScript ls = .ok t) ↔ ∀ l ∈ ls, ∃ is, assembleLine l = .ok is) ∧
    (∀ err, s.issueScript ls = .error err → ∃ l ∈ ls, assembleLine l = .error err) ∧
    ∀ t, s.issueScript ls = .ok t →
      ∃ iss : List (List Instr), List.Forall₂ (fun l is => assembleLine l = .ok is) ls iss ∧
        t = { s with script := s.script ++ iss.flatten.map encode }) ∧
  ∀ (i : Nat) (bs : List Nat), bs = [] ∨ 65536 < i + bs.length → ∃ err, assembleLine (.ldImg i bs) = .error err

/-- spec/70_reset_and_hazards.md section 3, steps 2 to 4 of the Flash flow: of the model's plan (log 15), run from any sound
state by step, the host gets one normal response for each image write and for FIX, and then, byte by byte, the input
with the computed checksum of its payload, low byte first, in the last two places; the device actions follow. -/
def Obligations.FlashFlowReadsBackTheRepairedImage : Prop :=
  ∀ (s : State) (input : List Byte) (acts : List HostAction), s.Sound → s.script = [] →
    flashFlow s.config.LEN input = .ok acts →
      ∃ (plan : List Instr) (new : Word),
        acts = plan.map .transaction ++ [.eraseDevice, .writeDevice, .resetDevice] ∧
        new = compute s.config (Memory.ofBytes (input.take s.config.LEN)) ∧
        responses plan.length (s.issueAll plan) =
          List.replicate (s.config.LEN + 1) .done ++
            (input.take (s.config.LEN - 2) ++ [new.extractLsb' 0 8, new.extractLsb' 8 8]).map .byte

/-- spec/70_reset_and_hazards.md section 3, the Backup flow: of the model's staging (log 15), run from any sound state by
step, the bytes read back are the bytes written, the checksum bytes too. -/
def Obligations.BackupStagingReadsBackWhatWasWritten : Prop :=
  ∀ (s : State) (image : List Byte), s.Sound → s.script = [] → image.length = s.config.LEN →
    responses (backupStaging image).length (s.issueAll (backupStaging image)) =
      List.replicate s.config.LEN .done ++ image.map .byte
end

