-- ==== Sys2Proof/Laws/Memory.lean ====
section
/-! SUPPORT. The laws of the image: reads after writes, and the canonical form that every operation keeps. -/

namespace Sys2Proof.Machine

/-! Sizes. -/

@[simp] theorem Memory.length_write (m : Memory) (i : Nat) (b : Byte) : (Memory.write m i b).length = m.length := by
  induction m with
  | nil => rfl
  | cons c m ih =>
    obtain ⟨a, x⟩ := c
    simp only [Memory.write]
    split <;> simp [ih]

@[simp] theorem Memory.length_writeWord (m : Memory) (i : Nat) (v : Word) :
    (Memory.writeWord m i v).length = m.length := by
  simp [Memory.writeWord]

@[simp] theorem Memory.length_ofBytesFrom (n : Nat) (bs : List Byte) : (Memory.ofBytesFrom n bs).length = bs.length := by
  induction bs generalizing n with
  | nil => rfl
  | cons b bs ih => simp [Memory.ofBytesFrom, ih]

@[simp] theorem Memory.length_ofBytes (bs : List Byte) : (Memory.ofBytes bs).length = bs.length := by
  simp [Memory.ofBytes]

@[simp] theorem Memory.length_unspecified (n : Nat) : (Memory.unspecified n).length = n := by
  simp [Memory.unspecified]

/-! The canonical form. -/

theorem Memory.wfFrom_write {n : Nat} {m : Memory} (h : Memory.wfFrom n m = true) (i : Nat) (b : Byte) :
    Memory.wfFrom n (Memory.write m i b) = true := by
  induction m generalizing n with
  | nil => rfl
  | cons c m ih =>
    obtain ⟨a, x⟩ := c
    simp only [Memory.wfFrom, Bool.and_eq_true] at h
    simp only [Memory.write]
    split <;> simp [Memory.wfFrom, h.1, h.2, ih h.2]

/-- A write keeps the canonical form. -/
theorem Memory.wf_write {m : Memory} (h : Memory.wf m = true) (i : Nat) (b : Byte) :
    Memory.wf (Memory.write m i b) = true :=
  Memory.wfFrom_write h i b

/-- A word write keeps the canonical form. -/
theorem Memory.wf_writeWord {m : Memory} (h : Memory.wf m = true) (i : Nat) (v : Word) :
    Memory.wf (Memory.writeWord m i v) = true :=
  Memory.wf_write (Memory.wf_write h _ _) _ _

theorem Memory.wfFrom_ofBytesFrom (n : Nat) (bs : List Byte) :
    Memory.wfFrom n (Memory.ofBytesFrom n bs) = true := by
  induction bs generalizing n with
  | nil => rfl
  | cons b bs ih => simp [Memory.ofBytesFrom, Memory.wfFrom, ih]

/-- An image built from bytes is in the canonical form. -/
@[simp] theorem Memory.wf_ofBytes (bs : List Byte) : Memory.wf (Memory.ofBytes bs) = true :=
  Memory.wfFrom_ofBytesFrom 0 bs

@[simp] theorem Memory.wf_unspecified (n : Nat) : Memory.wf (Memory.unspecified n) = true :=
  Memory.wf_ofBytes _

theorem Memory.fst_of_wfFrom {n : Nat} {m : Memory} (h : Memory.wfFrom n m = true) :
    m.map Prod.fst = List.range' n m.length := by
  induction m generalizing n with
  | nil => rfl
  | cons c m ih =>
    obtain ⟨a, x⟩ := c
    simp only [Memory.wfFrom, Bool.and_eq_true, beq_iff_eq] at h
    simp [List.range'_succ, h.1, ih h.2]

/-- The canonical form says which indices are listed: 0 to one below the size, rising. -/
theorem Memory.fst_of_wf {m : Memory} (h : Memory.wf m = true) : m.map Prod.fst = List.range m.length := by
  rw [Memory.fst_of_wfFrom h, List.range_eq_range']

/-- Indices rise strictly. -/
theorem Memory.rising_of_wf {m : Memory} (h : Memory.wf m = true) : (m.map Prod.fst).Pairwise (· < ·) := by
  rw [Memory.fst_of_wf h]
  exact List.pairwise_lt_range

/-! Reads. -/

theorem Memory.read_ofBytesFrom (n : Nat) (bs : List Byte) (i : Nat) :
    Memory.read (Memory.ofBytesFrom n bs) i = if n ≤ i then bs[i - n]? else none := by
  induction bs generalizing n with
  | nil => simp [Memory.ofBytesFrom, Memory.read]
  | cons b bs ih =>
    simp only [Memory.ofBytesFrom, Memory.read]
    by_cases h : n = i
    · simp [h]
    · rw [if_neg h, ih]
      by_cases h2 : n ≤ i
      · have h3 : i - n = (i - (n + 1)) + 1 := by omega
        rw [if_pos (by omega), if_pos h2, h3, List.getElem?_cons_succ]
      · rw [if_neg (by omega), if_neg h2]

/-- An image built from bytes reads as those bytes, and past them as nothing. -/
@[simp] theorem Memory.read_ofBytes (bs : List Byte) (i : Nat) : Memory.read (Memory.ofBytes bs) i = bs[i]? := by
  simp [Memory.ofBytes, Memory.read_ofBytesFrom]

theorem Memory.read_wfFrom {n : Nat} {m : Memory} (h : Memory.wfFrom n m = true) (i : Nat) :
    (Memory.read m i).isSome = true ↔ n ≤ i ∧ i < n + m.length := by
  induction m generalizing n with
  | nil => simp [Memory.read]
  | cons c m ih =>
    obtain ⟨a, x⟩ := c
    simp only [Memory.wfFrom, Bool.and_eq_true, beq_iff_eq] at h
    obtain ⟨rfl, h⟩ := h
    simp only [Memory.read, List.length_cons]
    split
    · simp; omega
    · rw [ih h]; omega

/-- In the canonical form the indices that exist are those below the size. -/
theorem Memory.isSome_read {m : Memory} (h : Memory.wf m = true) (i : Nat) :
    (Memory.read m i).isSome = true ↔ i < m.length := by
  rw [Memory.read_wfFrom h]; omega

/-- An existing index reads as `byteAt`. -/
theorem Memory.read_eq_byteAt {m : Memory} (h : Memory.wf m = true) {i : Nat} (hi : i < m.length) :
    Memory.read m i = some (Memory.byteAt m i) := by
  obtain ⟨b, hb⟩ := Option.isSome_iff_exists.1 ((Memory.isSome_read h i).2 hi)
  simp [Memory.byteAt, hb]

theorem Memory.read_write_of_ne (m : Memory) {i j : Nat} (b : Byte) (h : j ≠ i) :
    Memory.read (Memory.write m i b) j = Memory.read m j := by
  induction m with
  | nil => rfl
  | cons c m ih =>
    obtain ⟨a, x⟩ := c
    simp only [Memory.write]
    split <;> rename_i ha
    · simp only [Memory.read]; split <;> rename_i hb
      · exact absurd (hb.symm.trans ha) h
      · rfl
    · simp only [Memory.read, ih]

theorem Memory.read_write_self (m : Memory) (i : Nat) (b : Byte) :
    Memory.read (Memory.write m i b) i = if (Memory.read m i).isSome then some b else none := by
  induction m with
  | nil => rfl
  | cons c m ih =>
    obtain ⟨a, x⟩ := c
    simp only [Memory.write]
    split <;> rename_i ha
    · simp [Memory.read, ha]
    · simp [Memory.read, ha, ih]

/-- A write leaves every other byte alone. -/
theorem Memory.byteAt_write_of_ne (m : Memory) {i j : Nat} (b : Byte) (h : j ≠ i) :
    Memory.byteAt (Memory.write m i b) j = Memory.byteAt m j := by
  simp [Memory.byteAt, Memory.read_write_of_ne m b h]

/-- A read after a write to the same existing index gives the byte written. -/
theorem Memory.byteAt_write_self {m : Memory} (h : Memory.wf m = true) {i : Nat} (hi : i < m.length) (b : Byte) :
    Memory.byteAt (Memory.write m i b) i = b := by
  simp [Memory.byteAt, Memory.read_write_self, (Memory.isSome_read h i).2 hi]

/-- Every read after a write to an existing index. -/
theorem Memory.read_write {m : Memory} (h : Memory.wf m = true) {i : Nat} (hi : i < m.length) (b : Byte) (j : Nat) :
    Memory.read (Memory.write m i b) j = if j = i then some b else Memory.read m j := by
  split
  case isTrue hj => subst hj; simp [Memory.read_write_self, (Memory.isSome_read h j).2 hi]
  case isFalse hj => exact Memory.read_write_of_ne m b hj

/-- Every read after the write of a word to existing indices. -/
theorem Memory.read_writeWord {m : Memory} (h : Memory.wf m = true) {i : Nat} (hi : i + 1 < m.length) (v : Word)
    (j : Nat) :
    Memory.read (Memory.writeWord m i v) j =
      if j = i then some (v.extractLsb' 0 8) else if j = i + 1 then some (v.extractLsb' 8 8) else Memory.read m j := by
  rw [Memory.writeWord, Memory.read_write (Memory.wf_write h _ _) (by simpa using hi), Memory.read_write h (by omega)]
  split <;> split <;> first | rfl | omega

theorem Memory.byteAt_writeWord_of_ne (m : Memory) {i j : Nat} (v : Word) (h : j ≠ i) (h' : j ≠ i + 1) :
    Memory.byteAt (Memory.writeWord m i v) j = Memory.byteAt m j := by
  simp [Memory.writeWord, Memory.byteAt_write_of_ne _ _ h', Memory.byteAt_write_of_ne _ _ h]

theorem Memory.byteAt_writeWord_low {m : Memory} (h : Memory.wf m = true) {i : Nat} (hi : i + 1 < m.length) (v : Word) :
    Memory.byteAt (Memory.writeWord m i v) i = v.extractLsb' 0 8 := by
  rw [Memory.writeWord, Memory.byteAt_write_of_ne _ _ (by omega), Memory.byteAt_write_self h (by omega)]

theorem Memory.byteAt_writeWord_high {m : Memory} (h : Memory.wf m = true) {i : Nat} (hi : i + 1 < m.length) (v : Word) :
    Memory.byteAt (Memory.writeWord m i v) (i + 1) = v.extractLsb' 8 8 :=
  Memory.byteAt_write_self (Memory.wf_write h _ _) (by simpa using hi) _

/-- The word of two bytes, split again, is those bytes: assembling the halves of a word gives the word. -/
theorem word_of_halves (v : Word) :
    (v.extractLsb' 0 8).setWidth 16 ||| ((v.extractLsb' 8 8).setWidth 16 <<< 8) = v := by
  apply BitVec.eq_of_toNat_eq
  have h := v.isLt
  simp [BitVec.toNat_or, BitVec.toNat_shiftLeft, Nat.shiftRight_eq_div_pow, Nat.shiftLeft_eq]
  have h1 : v.toNat / 256 % 256 * 256 % 65536 = v.toNat / 256 * 256 := by omega
  rw [h1, Nat.or_comm, show v.toNat / 256 * 256 = (v.toNat / 256) <<< 8 by rw [Nat.shiftLeft_eq],
    ← Nat.shiftLeft_add_eq_or_of_lt (by omega), Nat.shiftLeft_eq]
  omega

/-- The low half of a word of two bytes is the low byte. -/
theorem low_half_of_word (a b : Byte) : (a.setWidth 16 ||| (b.setWidth 16 <<< 8)).extractLsb' 0 8 = a := by
  apply BitVec.eq_of_getLsbD_eq
  intro j hj
  simp only [BitVec.getLsbD_extractLsb', BitVec.getLsbD_or, BitVec.getLsbD_setWidth, BitVec.getLsbD_shiftLeft]
  simp [hj, show j < 16 by omega]

/-- The high half of a word of two bytes is the high byte. -/
theorem high_half_of_word (a b : Byte) : (a.setWidth 16 ||| (b.setWidth 16 <<< 8)).extractLsb' 8 8 = b := by
  apply BitVec.eq_of_getLsbD_eq
  intro j hj
  simp only [BitVec.getLsbD_extractLsb', BitVec.getLsbD_or, BitVec.getLsbD_setWidth, BitVec.getLsbD_shiftLeft]
  simp [hj, show 8 + j < 16 by omega, show j < 16 by omega]

/-- A word read after the write of a word at the same place gives the word written. -/
theorem Memory.wordAt_writeWord_self {m : Memory} (h : Memory.wf m = true) {i : Nat} (hi : i + 1 < m.length) (v : Word) :
    Memory.wordAt (Memory.writeWord m i v) i = v := by
  rw [Memory.wordAt, Memory.byteAt_writeWord_low h hi, Memory.byteAt_writeWord_high h hi, word_of_halves]

/-- A word apart from the word written is as before. -/
theorem Memory.wordAt_writeWord_of_lt (m : Memory) {i j : Nat} (v : Word) (h : j + 1 < i) :
    Memory.wordAt (Memory.writeWord m i v) j = Memory.wordAt m j := by
  simp only [Memory.wordAt]
  rw [Memory.byteAt_writeWord_of_ne _ _ (by omega) (by omega),
    Memory.byteAt_writeWord_of_ne _ _ (by omega) (by omega)]

/-- Images in the canonical form are equal when they have one size and every byte agrees. -/
theorem Memory.ext_of_wf {m m' : Memory} (h : Memory.wf m = true) (h' : Memory.wf m' = true)
    (hl : m.length = m'.length) (hb : ∀ i < m.length, Memory.read m i = Memory.read m' i) : m = m' := by
  suffices H : ∀ (n : Nat) (m m' : Memory), Memory.wfFrom n m = true → Memory.wfFrom n m' = true →
      m.length = m'.length → (∀ i, n ≤ i → i < n + m.length → Memory.read m i = Memory.read m' i) → m = m' from
    H 0 m m' h h' hl fun i _ hi => hb i (by omega)
  intro n m
  induction m generalizing n with
  | nil =>
    intro m' _ _ hl _
    exact (List.length_eq_zero_iff.1 hl.symm).symm
  | cons c m ih =>
    intro m' h h' hl hb
    cases m' with
    | nil => simp at hl
    | cons c' m' =>
      obtain ⟨a, x⟩ := c
      obtain ⟨a', x'⟩ := c'
      simp only [Memory.wfFrom, Bool.and_eq_true, beq_iff_eq] at h h'
      obtain ⟨rfl, h⟩ := h
      obtain ⟨rfl, h'⟩ := h'
      have hx : x = x' := by simpa [Memory.read] using hb a' (Nat.le_refl _) (by simp)
      have hm : m = m' := ih (a' + 1) m' h h' (by simpa using hl) fun i h1 h2 => by
        have h3 : ¬ a' = i := by omega
        simpa [Memory.read, h3] using hb i (by omega) (by simp; omega)
      rw [hx, hm]

end Sys2Proof.Machine
end

