-- ==== Sys2Proof/Laws/State.lean ====
section
/-! SUPPORT. One lemma for each field of each named update, so that no proof unfolds a record update. -/

namespace Sys2Proof.Machine

/-! Flags: the rows of the table of spec/10_state.md R30. -/

@[simp] theorem Status.afterFix_DONE (f : Status) (q : Bool) : (f.afterFix q).DONE = true := rfl
@[simp] theorem Status.afterFix_MATCH (f : Status) (q : Bool) : (f.afterFix q).MATCH = q := rfl
@[simp] theorem Status.afterFix_ILLCMD (f : Status) (q : Bool) : (f.afterFix q).ILLCMD = f.ILLCMD := rfl
@[simp] theorem Status.afterFix_AERR (f : Status) (q : Bool) : (f.afterFix q).AERR = f.AERR := rfl

@[simp] theorem Status.afterImageWrite_DONE (f : Status) : f.afterImageWrite.DONE = false := rfl
@[simp] theorem Status.afterImageWrite_MATCH (f : Status) : f.afterImageWrite.MATCH = false := rfl
@[simp] theorem Status.afterImageWrite_ILLCMD (f : Status) : f.afterImageWrite.ILLCMD = f.ILLCMD := rfl
@[simp] theorem Status.afterImageWrite_AERR (f : Status) : f.afterImageWrite.AERR = f.AERR := rfl

@[simp] theorem Status.afterReserved_DONE (f : Status) : f.afterReserved.DONE = f.DONE := rfl
@[simp] theorem Status.afterReserved_MATCH (f : Status) : f.afterReserved.MATCH = f.MATCH := rfl
@[simp] theorem Status.afterReserved_ILLCMD (f : Status) : f.afterReserved.ILLCMD = true := rfl
@[simp] theorem Status.afterReserved_AERR (f : Status) : f.afterReserved.AERR = f.AERR := rfl

@[simp] theorem Status.clearSticky_DONE (f : Status) (v : Word) : (f.clearSticky v).DONE = f.DONE := rfl
@[simp] theorem Status.clearSticky_MATCH (f : Status) (v : Word) : (f.clearSticky v).MATCH = f.MATCH := rfl
@[simp] theorem Status.clearSticky_ILLCMD (f : Status) (v : Word) :
    (f.clearSticky v).ILLCMD = (f.ILLCMD && !v.getLsbD 8) := rfl
@[simp] theorem Status.clearSticky_AERR (f : Status) (v : Word) :
    (f.clearSticky v).AERR = (f.AERR && !v.getLsbD 9) := rfl

/-! The bus error (spec/60_exceptions.md R87): AERR and nothing else. -/

@[simp] theorem Engine.busError_img (e : Engine) (k : BusErrorCode) : (e.busError k).1.img = e.img := rfl
@[simp] theorem Engine.busError_DONE (e : Engine) (k : BusErrorCode) : (e.busError k).1.STATUS.DONE = e.STATUS.DONE := rfl
@[simp] theorem Engine.busError_MATCH (e : Engine) (k : BusErrorCode) : (e.busError k).1.STATUS.MATCH = e.STATUS.MATCH := rfl
@[simp] theorem Engine.busError_ILLCMD (e : Engine) (k : BusErrorCode) :
    (e.busError k).1.STATUS.ILLCMD = e.STATUS.ILLCMD := rfl
@[simp] theorem Engine.busError_AERR (e : Engine) (k : BusErrorCode) : (e.busError k).1.STATUS.AERR = true := rfl
@[simp] theorem Engine.busError_CSUM_OLD (e : Engine) (k : BusErrorCode) : (e.busError k).1.CSUM_OLD = e.CSUM_OLD := rfl
@[simp] theorem Engine.busError_CSUM_NEW (e : Engine) (k : BusErrorCode) : (e.busError k).1.CSUM_NEW = e.CSUM_NEW := rfl
@[simp] theorem Engine.busError_response (e : Engine) (k : BusErrorCode) : (e.busError k).2 = .busError k := rfl

/-! The control commands. -/

@[simp] theorem Engine.nop_engine (e : Engine) : e.nop.1 = e := rfl
@[simp] theorem Engine.nop_response (e : Engine) : e.nop.2 = .done := rfl
@[simp] theorem Engine.reserved_img (e : Engine) : e.reserved.1.img = e.img := rfl
@[simp] theorem Engine.reserved_STATUS (e : Engine) : e.reserved.1.STATUS = e.STATUS.afterReserved := rfl
@[simp] theorem Engine.reserved_CSUM_OLD (e : Engine) : e.reserved.1.CSUM_OLD = e.CSUM_OLD := rfl
@[simp] theorem Engine.reserved_CSUM_NEW (e : Engine) : e.reserved.1.CSUM_NEW = e.CSUM_NEW := rfl
@[simp] theorem Engine.reserved_response (e : Engine) : e.reserved.2 = .done := rfl

/-! FIX (spec/40_checksum.md R72, R73). -/

theorem Engine.fix_img (c : Config) (e : Engine) :
    (e.fix c).1.img = if compute c e.img = stored c e.img then e.img else writeBack c e.img (compute c e.img) := rfl
@[simp] theorem Engine.fix_STATUS (c : Config) (e : Engine) :
    (e.fix c).1.STATUS = e.STATUS.afterFix (decide (compute c e.img = stored c e.img)) := rfl
@[simp] theorem Engine.fix_CSUM_OLD (c : Config) (e : Engine) : (e.fix c).1.CSUM_OLD = stored c e.img := rfl
@[simp] theorem Engine.fix_CSUM_NEW (c : Config) (e : Engine) : (e.fix c).1.CSUM_NEW = compute c e.img := rfl
@[simp] theorem Engine.fix_response (c : Config) (e : Engine) : (e.fix c).2 = .done := rfl

/-! The launch and the host's script. -/

@[simp] theorem State.afterReset_config (c : Config) (m : Memory) : (State.afterReset c m).config = c := rfl
@[simp] theorem State.afterReset_engine (c : Config) (m : Memory) :
    (State.afterReset c m).engine = Engine.afterReset m := rfl
@[simp] theorem State.afterReset_script (c : Config) (m : Memory) : (State.afterReset c m).script = [] := rfl
@[simp] theorem State.afterReset_response (c : Config) (m : Memory) : (State.afterReset c m).response = none := rfl
@[simp] theorem Engine.afterReset_img (m : Memory) : (Engine.afterReset m).img = m := rfl
@[simp] theorem Engine.afterReset_CSUM_OLD (m : Memory) : (Engine.afterReset m).CSUM_OLD = 0 := rfl
@[simp] theorem Engine.afterReset_CSUM_NEW (m : Memory) : (Engine.afterReset m).CSUM_NEW = 0 := rfl
@[simp] theorem Engine.afterReset_DONE (m : Memory) : (Engine.afterReset m).STATUS.DONE = false := rfl
@[simp] theorem Engine.afterReset_MATCH (m : Memory) : (Engine.afterReset m).STATUS.MATCH = false := rfl
@[simp] theorem Engine.afterReset_ILLCMD (m : Memory) : (Engine.afterReset m).STATUS.ILLCMD = false := rfl
@[simp] theorem Engine.afterReset_AERR (m : Memory) : (Engine.afterReset m).STATUS.AERR = false := rfl

@[simp] theorem State.idle_eq (s : State) : s.idle = s := rfl
@[simp] theorem State.issueNext_config (s : State) (e : Encoded) : (s.issueNext e).config = s.config := rfl
@[simp] theorem State.issueNext_engine (s : State) (e : Encoded) : (s.issueNext e).engine = s.engine := rfl
@[simp] theorem State.issueNext_script (s : State) (e : Encoded) : (s.issueNext e).script = e :: s.script := rfl
@[simp] theorem State.issueNext_response (s : State) (e : Encoded) : (s.issueNext e).response = s.response := rfl
@[simp] theorem State.issueAll_config (s : State) (is : List Instr) : (s.issueAll is).config = s.config := rfl
@[simp] theorem State.issueAll_engine (s : State) (is : List Instr) : (s.issueAll is).engine = s.engine := rfl
@[simp] theorem State.issueAll_script (s : State) (is : List Instr) :
    (s.issueAll is).script = s.script ++ is.map encode := rfl
@[simp] theorem State.issueAll_response (s : State) (is : List Instr) : (s.issueAll is).response = s.response := rfl

/-- A completed transaction is a next state, and this one. -/
@[simp] theorem State.complete_eq_next (s t : State) (r : Engine × Response) :
    s.complete r = .next t ↔ { s with engine := r.1, response := some r.2 } = t := by
  simp [State.complete]

/-- Taking a transaction that has just been put first gives the state back. -/
@[simp] theorem State.fetch_issueNext (s : State) (e : Encoded) : (s.issueNext e).fetch = some (e, s) := rfl

/-- What a launch answers when it answers a state. -/
theorem launch_eq_ok {c : Config} {image : List Byte} {s : State} :
    launch c image = .ok s ↔
      c.legal = true ∧ image.length = c.LEN ∧ State.afterReset c (Memory.ofBytes image) = s := by
  unfold launch
  split
  case isTrue h => split <;> simp [*]
  case isFalse h => simp [h]

/-- A line is assembled exactly when it is well-formed, and into the transactions of its expansion. -/
theorem assembleLine_eq_ok {l : ScriptLine} {is : List Instr} :
    assembleLine l = .ok is ↔ l.wellFormed = true ∧ (expandLine l).map basicInstr = is := by
  unfold assembleLine
  split <;> simp [*]

theorem State.fetch_cons (s : State) (e : Encoded) (rest : List Encoded) (h : s.script = e :: rest) :
    s.fetch = some (e, { s with script := rest }) := by
  simp [State.fetch, h]

theorem State.fetch_nil (s : State) (h : s.script = []) : s.fetch = none := by
  simp [State.fetch, h]

end Sys2Proof.Machine
end

