-- ==== Sys2Proof/Laws/Checksum.lean ====
section
/-! SUPPORT. The datapath: how the accumulator unfolds, what compute reads, and what the write-back does to the stored and
the computed checksum. -/

namespace Sys2Proof.Machine

/-- A legal LEN is even, at least 4 and fits 16 bits (spec/00_scope.md R6). -/
theorem Config.legal_iff (c : Config) : c.legal = true ↔ c.LEN % 2 = 0 ∧ 4 ≤ c.LEN ∧ c.LEN ≤ 65534 := by
  simp [Config.legal, and_assoc]

@[simp] theorem accumulate_zero (m : Memory) : accumulate m 0 = SEED := rfl

@[simp] theorem accumulate_succ (m : Memory) (n : Nat) :
    accumulate m (n + 1) = checksumStep (accumulate m n) (payloadWord m n) := by
  simp [accumulate, List.range_succ]

/-- The accumulator depends on the words it has taken only. -/
theorem accumulate_congr {m m' : Memory} (n : Nat) (h : ∀ k < n, payloadWord m k = payloadWord m' k) :
    accumulate m n = accumulate m' n := by
  induction n with
  | zero => rfl
  | succ n ih =>
    simp [ih fun k hk => h k (by omega), h n (by omega)]

/-- A payload word depends on its two bytes only. -/
theorem payloadWord_congr {m m' : Memory} (k : Nat) (h : Memory.byteAt m (2 * k) = Memory.byteAt m' (2 * k))
    (h' : Memory.byteAt m (2 * k + 1) = Memory.byteAt m' (2 * k + 1)) : payloadWord m k = payloadWord m' k := by
  simp [payloadWord, Memory.wordAt, h, h']

/-- The last payload byte stands below the StoredChecksum. -/
theorem payload_index_lt {c : Config} {k : Nat} (hk : k < NWORDS c) : 2 * k + 1 < c.LEN - 2 := by
  unfold NWORDS at hk; omega

/-- Writing the checksum bytes does not change what compute reads. -/
theorem compute_writeBack (c : Config) (m : Memory) (v : Word) : compute c (writeBack c m v) = compute c m :=
  accumulate_congr _ fun k hk => by
    have := payload_index_lt hk
    exact Memory.wordAt_writeWord_of_lt m v (by omega)

/-- After the write-back the stored checksum is the value written. -/
theorem stored_writeBack {c : Config} {m : Memory} (hc : c.legal = true) (h : Memory.wf m = true)
    (hl : m.length = c.LEN) (v : Word) : stored c (writeBack c m v) = v := by
  have := (Config.legal_iff c).1 hc
  exact Memory.wordAt_writeWord_self h (by omega) v

@[simp] theorem length_writeBack (c : Config) (m : Memory) (v : Word) : (writeBack c m v).length = m.length := by
  simp [writeBack]

theorem wf_writeBack {m : Memory} (c : Config) (h : Memory.wf m = true) (v : Word) :
    Memory.wf (writeBack c m v) = true :=
  Memory.wf_writeWord h _ _

/-- A byte below the StoredChecksum survives the write-back. -/
theorem byteAt_writeBack_of_lt (c : Config) (m : Memory) (v : Word) {i : Nat} (hi : i < c.LEN - 2) :
    Memory.byteAt (writeBack c m v) i = Memory.byteAt m i :=
  Memory.byteAt_writeWord_of_ne m v (by omega) (by omega)

/-- FIX keeps the size of the image. -/
@[simp] theorem length_fix_img (c : Config) (e : Engine) : (e.fix c).1.img.length = e.img.length := by
  rw [Engine.fix_img]; split <;> simp

/-- FIX keeps the canonical form. -/
theorem wf_fix_img (c : Config) {e : Engine} (h : Memory.wf e.img = true) : Memory.wf (e.fix c).1.img = true := by
  rw [Engine.fix_img]; split
  · exact h
  · exact wf_writeBack c h _

/-- FIX changes no byte below the StoredChecksum. -/
theorem byteAt_fix_of_lt (c : Config) (e : Engine) {i : Nat} (hi : i < c.LEN - 2) :
    Memory.byteAt (e.fix c).1.img i = Memory.byteAt e.img i := by
  rw [Engine.fix_img]; split
  · rfl
  · exact byteAt_writeBack_of_lt c _ _ hi

/-- FIX leaves the computed checksum alone. -/
@[simp] theorem compute_fix (c : Config) (e : Engine) : compute c (e.fix c).1.img = compute c e.img := by
  rw [Engine.fix_img]; split
  · rfl
  · exact compute_writeBack c _ _

end Sys2Proof.Machine
end

