-- ==== Sys2Proof/Laws/Encoding.lean ====
section
/-! SUPPORT. The bits of a descriptor and the numbers its fields are (spec/30_encoding.md R53, R60). -/

namespace Sys2Proof

/-- The bits of an image descriptor, field by field. -/
theorem getLsbD_image (z : BitVec 2) (i : Index) (b : Byte) (k : Nat) :
    BitVec.getLsbD (z ++ 0#6 ++ i ++ b) k =
      if k < 8 then b.getLsbD k else if k - 8 < 16 then i.getLsbD (k - 8)
      else if k - 8 - 16 < 6 then (0#6).getLsbD (k - 8 - 16) else z.getLsbD (k - 8 - 16 - 6) := by
  rw [BitVec.getLsbD_append, BitVec.getLsbD_append, BitVec.getLsbD_append]

/-- The bits of a register descriptor, field by field. -/
theorem getLsbD_register (z : BitVec 2) (off : Offset) (v : Word) (k : Nat) :
    BitVec.getLsbD (z ++ 0#11 ++ off ++ v) k =
      if k < 16 then v.getLsbD k else if k - 16 < 3 then off.getLsbD (k - 16)
      else if k - 16 - 3 < 11 then (0#11).getLsbD (k - 16 - 3) else z.getLsbD (k - 16 - 3 - 11) := by
  rw [BitVec.getLsbD_append, BitVec.getLsbD_append, BitVec.getLsbD_append]

/-- Appending a low field of `m` bits is multiplication and addition. -/
theorem toNat_append_eq {n m : Nat} (x : BitVec n) (y : BitVec m) : (x ++ y).toNat = x.toNat * 2 ^ m + y.toNat := by
  rw [BitVec.toNat_append, ← Nat.shiftLeft_add_eq_or_of_lt y.isLt, Nat.shiftLeft_eq]

/-- The number an image descriptor is. -/
theorem toNat_image (z : BitVec 2) (i : Index) (b : Byte) :
    (z ++ 0#6 ++ i ++ b).toNat = z.toNat * 2 ^ 30 + i.toNat * 2 ^ 8 + b.toNat := by
  rw [toNat_append_eq, toNat_append_eq, toNat_append_eq]
  simp
  omega

/-- The number a register descriptor is. -/
theorem toNat_register (z : BitVec 2) (off : Offset) (v : Word) :
    (z ++ 0#11 ++ off ++ v).toNat = z.toNat * 2 ^ 30 + off.toNat * 2 ^ 16 + v.toNat := by
  rw [toNat_append_eq, toNat_append_eq, toNat_append_eq]
  simp
  omega

/-! The fields of a descriptor as numbers. -/

theorem toNat_kind (d : Descriptor) : (Descriptor.kind d).toNat = d.toNat / 2 ^ 30 := by
  have := d.isLt
  simp [Descriptor.kind, Nat.shiftRight_eq_div_pow]; omega

theorem toNat_index (d : Descriptor) : (Descriptor.index d).toNat = d.toNat / 2 ^ 8 % 2 ^ 16 := by
  simp [Descriptor.index, Nat.shiftRight_eq_div_pow]

theorem toNat_byte (d : Descriptor) : (Descriptor.byte d).toNat = d.toNat % 2 ^ 8 := by
  simp [Descriptor.byte]

theorem toNat_offset (d : Descriptor) : (Descriptor.offset d).toNat = d.toNat / 2 ^ 16 % 2 ^ 3 := by
  simp [Descriptor.offset, Nat.shiftRight_eq_div_pow]

theorem toNat_value (d : Descriptor) : (Descriptor.value d).toNat = d.toNat % 2 ^ 16 := by
  simp [Descriptor.value]

theorem toNat_imageZero (d : Descriptor) : (Descriptor.imageZero d).toNat = d.toNat / 2 ^ 24 % 2 ^ 6 := by
  simp [Descriptor.imageZero, Nat.shiftRight_eq_div_pow]

theorem toNat_registerZero (d : Descriptor) : (Descriptor.registerZero d).toNat = d.toNat / 2 ^ 19 % 2 ^ 11 := by
  simp [Descriptor.registerZero, Nat.shiftRight_eq_div_pow]

end Sys2Proof
end

