-- ==== Sys2Proof/Laws/Exec.lean ====
section
/-! SUPPORT. What a transaction can do, said once: the engine and the response each instruction gives, that every
instruction completes, the cases of one transaction, and the cases of one step. -/

namespace Sys2Proof.Machine

/-- What the engine does for an instruction, and the response. -/
def Engine.perform (c : Config) (e : Engine) : Instr → Engine × Response
  | .nop => e.nop
  | .fix => e.fix c
  | .imgRd i => e.imageRead c i
  | .imgWr i b => e.imageWrite c i b
  | .regRd off => e.registerRead c off
  | .regWr off v => e.registerWrite c off v

/-- Every instruction completes its transaction with what the engine does for it. -/
theorem exec_eq_complete (i : Instr) (s : State) : exec i s = s.complete (s.engine.perform s.config i) := by
  cases i <;> rfl

/-- The next state of an instruction. -/
theorem exec_eq_next {i : Instr} {s t : State} :
    exec i s = .next t ↔
      { s with engine := (s.engine.perform s.config i).1, response := some (s.engine.perform s.config i).2 } = t := by
  rw [exec_eq_complete, State.complete_eq_next]

/-! The register map, offset by offset (spec/10_state.md R17). -/

@[simp] theorem regAt_zero : regAt 0#3 = some .CMD := rfl
@[simp] theorem regAt_one : regAt 1#3 = some .STATUS := rfl
@[simp] theorem regAt_two : regAt 2#3 = some .CSUM_OLD := rfl
@[simp] theorem regAt_three : regAt 3#3 = some .CSUM_NEW := rfl
@[simp] theorem regAt_four : regAt 4#3 = some .LEN := rfl

/-- An offset is a register below 5 and unassigned from 5 on. -/
theorem regAt_eq_none_iff (off : Offset) : regAt off = none ↔ 5 ≤ off.toNat := by
  revert off; decide

/-- The offsets of the registers that ignore writes (spec/41_control.md R83). -/
theorem regAt_readOnly (off : Offset) (h : 2 ≤ off.toNat) (h' : off.toNat ≤ 4) :
    regAt off = some .CSUM_OLD ∨ regAt off = some .CSUM_NEW ∨ regAt off = some .LEN := by
  revert off; decide

/-! Command words (spec/30_encoding.md R54). -/

@[simp] theorem Engine.runCommand_nop (c : Config) (e : Engine) : e.runCommand c 0x0000#16 = e.nop := rfl
@[simp] theorem Engine.runCommand_fix (c : Config) (e : Engine) : e.runCommand c 0x0001#16 = e.fix c := rfl

theorem Engine.runCommand_reserved (c : Config) (e : Engine) {v : Word} (h0 : v ≠ 0x0000#16) (h1 : v ≠ 0x0001#16) :
    e.runCommand c v = e.reserved := by
  simp [Engine.runCommand, decodeCommand, h0, h1]

/-! The transactions. -/

theorem Engine.imageRead_of_lt {c : Config} {i : Index} (e : Engine) (h : i.toNat < c.LEN) :
    e.imageRead c i = (e, .byte (Memory.byteAt e.img i.toNat)) := by
  simp [Engine.imageRead, hasIndex, h]

theorem Engine.imageRead_of_le {c : Config} {i : Index} (e : Engine) (h : c.LEN ≤ i.toNat) :
    e.imageRead c i = e.busError .imgRange := by
  simp [Engine.imageRead, hasIndex, Nat.not_lt.2 h]

theorem Engine.imageWrite_of_lt {c : Config} {i : Index} (e : Engine) (b : Byte) (h : i.toNat < c.LEN) :
    e.imageWrite c i b =
      ({ e with img := Memory.write e.img i.toNat b, STATUS := e.STATUS.afterImageWrite }, .done) := by
  simp [Engine.imageWrite, hasIndex, h]

theorem Engine.imageWrite_of_le {c : Config} {i : Index} (e : Engine) (b : Byte) (h : c.LEN ≤ i.toNat) :
    e.imageWrite c i b = e.busError .imgRange := by
  simp [Engine.imageWrite, hasIndex, Nat.not_lt.2 h]

theorem Engine.registerRead_of_le {c : Config} {off : Offset} (e : Engine) (h : 5 ≤ off.toNat) :
    e.registerRead c off = e.busError .regUnassigned := by
  simp [Engine.registerRead, (regAt_eq_none_iff off).2 h]

theorem Engine.registerWrite_of_le {c : Config} {off : Offset} (e : Engine) (v : Word) (h : 5 ≤ off.toNat) :
    e.registerWrite c off v = e.busError .regUnassigned := by
  simp [Engine.registerWrite, (regAt_eq_none_iff off).2 h]

/-- Everything a transaction can do to the engine, and when: the whole machine's rules follow from these cases. -/
inductive Engine.Effect (c : Config) (e : Engine) : Instr → Engine × Response → Prop where
  /-- No effect: NOP, a read that is accepted, a write that is ignored. -/
  | unchanged (i : Instr) (r : Response) (hf : runsFix i = false) (hw : writesImage i = false)
      (hr : ∀ k, r ≠ .busError k) : Engine.Effect c e i (e, r)
  /-- FIX. -/
  | fix (i : Instr) (h : runsFix i = true) : Engine.Effect c e i (e.fix c)
  /-- An accepted image write. -/
  | imageWrite (i : Index) (b : Byte) (h : i.toNat < c.LEN) :
      Engine.Effect c e (.imgWr i b)
        ({ e with img := Memory.write e.img i.toNat b, STATUS := e.STATUS.afterImageWrite }, .done)
  /-- A reserved command. -/
  | reserved (v : Word) (h0 : v ≠ 0x0000#16) (h1 : v ≠ 0x0001#16) : Engine.Effect c e (.regWr 0 v) e.reserved
  /-- A STATUS write. -/
  | statusWrite (v : Word) : Engine.Effect c e (.regWr 1 v) ({ e with STATUS := e.STATUS.clearSticky v }, .done)
  /-- A bus error. -/
  | busError (i : Instr) (k : BusErrorCode) (hf : runsFix i = false) : Engine.Effect c e i (e.busError k)

/-- What the engine does is one of these cases. -/
theorem Engine.perform_effect (c : Config) (e : Engine) (i : Instr) : Engine.Effect c e i (e.perform c i) := by
  cases i with
  | nop => exact .unchanged _ _ rfl rfl (by simp)
  | fix => exact .fix _ rfl
  | imgRd n =>
    by_cases h : n.toNat < c.LEN
    · simpa only [Engine.perform, Engine.imageRead_of_lt e h] using .unchanged _ _ rfl rfl (by simp)
    · simpa only [Engine.perform, Engine.imageRead_of_le e (Nat.not_lt.1 h)] using .busError _ _ rfl
  | imgWr n b =>
    by_cases h : n.toNat < c.LEN
    · simpa only [Engine.perform, Engine.imageWrite_of_lt e b h] using .imageWrite n b h
    · simpa only [Engine.perform, Engine.imageWrite_of_le e b (Nat.not_lt.1 h)] using .busError _ _ rfl
  | regRd off =>
    simp only [Engine.perform, Engine.registerRead]
    split
    · exact .unchanged _ _ rfl rfl (by simp)
    · exact .busError _ _ rfl
  | regWr off v =>
    by_cases h0 : off = 0
    · subst h0
      by_cases hv0 : v = 0x0000#16
      · subst hv0; exact .unchanged _ _ (by decide) rfl (by simp)
      by_cases hv1 : v = 0x0001#16
      · subst hv1; exact .fix _ (by decide)
      · have h : regAt 0 = some .CMD := regAt_zero
        simpa only [Engine.perform, Engine.registerWrite, h, Engine.regSet,
          Engine.runCommand_reserved c e hv0 hv1] using .reserved v hv0 hv1
    have hf : runsFix (.regWr off v) = false := by rw [runsFix, decide_eq_false h0, Bool.false_and]
    by_cases h1 : off = 1
    · subst h1; exact .statusWrite v
    by_cases h5 : 5 ≤ off.toNat
    · simpa only [Engine.perform, Engine.registerWrite_of_le e v h5] using .busError _ _ hf
    · have h2 : 2 ≤ off.toNat := by
        have h0' : off.toNat ≠ 0 := fun h => h0 (BitVec.eq_of_toNat_eq h)
        have h1' : off.toNat ≠ 1 := fun h => h1 (BitVec.eq_of_toNat_eq h)
        omega
      rcases regAt_readOnly off h2 (by omega) with h | h | h <;>
        simpa only [Engine.perform, Engine.registerWrite, h, Engine.regSet] using .unchanged _ _ hf rfl (by simp)

/-- A transaction changes the engine in one of these ways and the response, and nothing else. -/
theorem exec_cases {i : Instr} {s t : State} (h : exec i s = .next t) :
    t.config = s.config ∧ t.script = s.script ∧
      ∃ r, Engine.Effect s.config s.engine i (t.engine, r) ∧ t.response = some r := by
  rw [exec_eq_next] at h
  subst h
  exact ⟨rfl, rfl, _, s.engine.perform_effect s.config i, rfl⟩

/-- A step that goes on is idle, or performs the host's next transaction. -/
theorem step_cases {s t : State} (h : step s = .next t) :
    s.config.legal = true ∧
      ((s.script = [] ∧ t = s) ∨
        ∃ e rest i, s.script = e :: rest ∧ decode e = .ok i ∧ exec i { s with script := rest } = .next t) := by
  unfold step at h
  split at h
  case isFalse => cases h
  case isTrue hc =>
    refine ⟨hc, ?_⟩
    cases hs : s.script with
    | nil =>
      rw [State.fetch_nil s hs] at h
      cases h
      exact .inl ⟨rfl, rfl⟩
    | cons e rest =>
      rw [State.fetch_cons s e rest hs] at h
      simp only at h
      split at h
      case h_2 => cases h
      case h_1 i hd => exact .inr ⟨e, rest, i, rfl, hd, h⟩

/-- A run of `k + 1` steps is a step and a run of `k`. -/
theorem run_succ_of_step_next {s t : State} (h : step s = .next t) (k : Nat) :
    Sys2Proof.core.run (k + 1) s = Sys2Proof.core.run k t := by
  have h' : Sys2Proof.core.step s = .next t := h
  simp only [Host.Core.run, h']

end Sys2Proof.Machine
end

