-- ==== Sys2Proof/Laws/HostFlow.lean ====
section
/-! SUPPORT. What the host receives for the transactions it issues, and what an assembled script is. -/

namespace Sys2Proof.Machine

/-- The response of the next transaction comes first, then those of the rest, from the state it leaves. -/
theorem responses_succ {s : State} {e : Encoded} {rest : List Encoded} {i : Instr} (n : Nat)
    (hc : s.config.legal = true) (hs : s.script = e :: rest) (hd : decode e = .ok i) :
    responses (n + 1) s =
      (s.engine.perform s.config i).2 ::
        responses n { s with
          engine := (s.engine.perform s.config i).1
          script := rest
          response := some (s.engine.perform s.config i).2 } := by
  have h : step s = exec i { s with script := rest } := by simp [step, hc, State.fetch_cons s e rest hs, hd]
  rw [responses, h, exec_eq_complete]
  rfl

/-- A script is assembled exactly when every line is, into their transactions in order. -/
theorem assemble_eq_ok {ls : List ScriptLine} {is : List Instr} :
    assemble ls = .ok is ↔
      ∃ iss : List (List Instr), List.Forall₂ (fun l is => assembleLine l = .ok is) ls iss ∧ iss.flatten = is := by
  induction ls generalizing is with
  | nil => simp [assemble]
  | cons l ls ih =>
    rw [assemble]
    cases hl : assembleLine l with
    | error err =>
      refine ⟨(by intro h; cases h), ?_⟩
      rintro ⟨_, hk, -⟩
      cases hk with
      | cons hl' _ => cases hl.symm.trans hl'
    | ok js =>
      cases ha : assemble ls with
      | error err =>
        refine ⟨(by intro h; cases h), ?_⟩
        rintro ⟨_, hk, -⟩
        cases hk with
        | cons _ h => cases ha.symm.trans (ih.2 ⟨_, h, rfl⟩)
      | ok rest =>
        obtain ⟨iss, h, hf⟩ := ih.1 ha
        constructor
        · intro hk
          cases hk
          exact ⟨js :: iss, .cons hl h, by simp [hf]⟩
        · rintro ⟨_, hk, rfl⟩
          cases hk with
          | cons hl' h' =>
            cases hl.symm.trans hl'
            cases ha.symm.trans (ih.2 ⟨_, h', rfl⟩)
            rfl

/-- The refusal of a script is that of one of its lines. -/
theorem assemble_eq_error {ls : List ScriptLine} {err : ScriptError} (h : assemble ls = .error err) :
    ∃ l ∈ ls, assembleLine l = .error err := by
  induction ls with
  | nil => cases h
  | cons l ls ih =>
    rw [assemble] at h
    cases hl : assembleLine l with
    | error err' =>
      rw [hl] at h
      cases h
      exact ⟨l, by simp, hl⟩
    | ok js =>
      cases ha : assemble ls with
      | error err' =>
        rw [hl, ha] at h
        cases h
        obtain ⟨k, hk, hk'⟩ := ih ha
        exact ⟨k, by simp [hk], hk'⟩
      | ok rest => rw [hl, ha] at h; cases h

end Sys2Proof.Machine
end

