-- ==== Sys2Proof/Laws/PerInstr.lean ====
section
/-! SUPPORT. The statement made per instruction: an instruction's encoding fits its own row of spec/opcode_table.json (the
row's number of bits, its match under its mask). -/

namespace Sys2Proof.Laws.TableRow

/-- The encoding of `i` fits the row of `i`. -/
def Statement (i : Instr) : Prop := i.row.fits (encode i) = true

theorem nop : Statement .nop := by unfold Statement; decide

theorem fix : Statement .fix := by unfold Statement; decide

theorem imgRd (i : Index) : Statement (.imgRd i) := by
  simp only [Statement, OpcodeRow.fits, Instr.row, encode, Encoded.nbits, Encoded.bits, Bool.and_eq_true, beq_iff_eq,
    true_and]
  apply BitVec.eq_of_getLsbD_eq
  intro k hk
  rw [BitVec.getLsbD_and]
  refine (congrArg (· && _) (getLsbD_image 0b00#2 i 0#8 k)).trans ?_
  interval_cases k <;> simp

theorem imgWr (i : Index) (b : Byte) : Statement (.imgWr i b) := by
  simp only [Statement, OpcodeRow.fits, Instr.row, encode, Encoded.nbits, Encoded.bits, Bool.and_eq_true, beq_iff_eq,
    true_and]
  apply BitVec.eq_of_getLsbD_eq
  intro k hk
  rw [BitVec.getLsbD_and]
  refine (congrArg (· && _) (getLsbD_image 0b01#2 i b k)).trans ?_
  interval_cases k <;> simp

theorem regRd (off : Offset) : Statement (.regRd off) := by
  simp only [Statement, OpcodeRow.fits, Instr.row, encode, Encoded.nbits, Encoded.bits, Bool.and_eq_true, beq_iff_eq,
    true_and]
  apply BitVec.eq_of_getLsbD_eq
  intro k hk
  rw [BitVec.getLsbD_and]
  refine (congrArg (· && _) (getLsbD_register 0b10#2 off 0#16 k)).trans ?_
  interval_cases k <;> simp

theorem regWr (off : Offset) (v : Word) : Statement (.regWr off v) := by
  simp only [Statement, OpcodeRow.fits, Instr.row, encode, Encoded.nbits, Encoded.bits, Bool.and_eq_true, beq_iff_eq,
    true_and]
  apply BitVec.eq_of_getLsbD_eq
  intro k hk
  rw [BitVec.getLsbD_and]
  refine (congrArg (· && _) (getLsbD_register 0b11#2 off v k)).trans ?_
  interval_cases k <;> simp

end Sys2Proof.Laws.TableRow
end

