-- ==== Sys2Proof/Tests/Slice0.lean ====
section
/-! SUPPORT. The model's own tests: the vectors of spec/95_test_vectors.md (each names its vector), the smoke test of the
checks of WellFormed, and, for every obligation with hypotheses, a concrete state and operands that meet them. -/

namespace Sys2Proof.Tests

open Sys2Proof Sys2Proof.Machine

/-! Small states. -/

/-- A launched engine over these bytes. -/
def fresh (bytes : List Byte) : State := State.afterReset ⟨bytes.length⟩ (Memory.ofBytes bytes)

/-- A launched engine with these STATUS bits. -/
def withStatus (s : State) (f : Status) : State := { s with engine := { s.engine with STATUS := f } }

/-- The next state of an outcome. -/
def nextState : Host.Outcome State Fault Refusal → Option State
  | .next t => some t
  | .fault _ => none
  | .refused _ => none

/-- What a test looks at: the bytes of the image, STATUS, CSUM_OLD, CSUM_NEW and the response. -/
def seen (s : State) : List Byte × Word × Word × Word × Option Response :=
  (s.engine.img.map Prod.snd, s.engine.STATUS.toWord, s.engine.CSUM_OLD, s.engine.CSUM_NEW, s.response)

/-- `seen` after an instruction. -/
def seenAfter (i : Instr) (s : State) : Option (List Byte × Word × Word × Word × Option Response) :=
  (nextState (exec i s)).map seen

/-- V5's image before FIX. -/
def stale4 : State := fresh [0x34#8, 0x12#8, 0x00#8, 0x00#8]

/-- V5's state after FIX. -/
def fixed4 : State :=
  { config := ⟨4⟩
    engine :=
      { img := Memory.ofBytes [0x34#8, 0x12#8, 0x3D#8, 0x71#8]
        STATUS := { DONE := true, MATCH := false, ILLCMD := false, AERR := false }
        CSUM_OLD := 0x0000#16
        CSUM_NEW := 0x713D#16 }
    script := []
    response := some .done }

/-- Every STATUS bit is 1 (V25 to V27's 0x0303). -/
def allFlags : Status := { DONE := true, MATCH := true, ILLCMD := true, AERR := true }

/-! The datapath. -/

/-- V-S1 to V-S13 of spec/95_test_vectors.md section 2.1. -/
theorem test_checksum_step :
    [(0xAAAA#16, 0x0000#16), (0xAAAA#16, 0xAAAA#16), (0xAAAA#16, 0x5555#16), (0x8000#16, 0x0000#16),
      (0x0000#16, 0x8000#16), (0xFFFF#16, 0xFFFF#16), (0xFFFF#16, 0x0000#16), (0x0000#16, 0x0000#16),
      (0x0001#16, 0x0000#16), (0x7FFF#16, 0x0000#16), (0x1234#16, 0x5678#16), (0xAAAA#16, 0x1234#16),
      (0xAAAA#16, 0xFFFF#16)].map (fun p => checksumStep p.1 p.2) =
    [0x5555#16, 0x0000#16, 0xFFFF#16, 0x0001#16, 0x0001#16, 0x0000#16, 0xFFFF#16, 0x0000#16, 0x0002#16, 0xFFFE#16,
      0x8898#16, 0x713D#16, 0xAAAA#16] := by decide

/-- V-W1 to V-W4 of spec/95_test_vectors.md section 2.1. -/
theorem test_word_assembly :
    [[0x01#8, 0x02#8], [0x34#8, 0x12#8], [0x00#8, 0x80#8], [0xFF#8, 0x00#8]].map
      (fun bs => payloadWord (Memory.ofBytes bs) 0) = [0x0201#16, 0x1234#16, 0x8000#16, 0x00FF#16] := by decide

/-- V14's and V15's accumulators, and V14's stored checksum (spec/95_test_vectors.md section 2.2). -/
theorem test_accumulators :
    [1, 2, 3].map (accumulate (Memory.ofBytes [1#8, 2#8, 3#8, 4#8, 5#8, 6#8, 0x5B#8, 0x59#8])) =
      [0x5157#16, 0xAAA8#16, 0x595B#16] ∧
    [1, 2, 3].map (accumulate (Memory.ofBytes [0x11#8, 2#8, 3#8, 4#8, 5#8, 6#8, 0x5B#8, 0x59#8])) =
      [0x5177#16, 0xAAE8#16, 0x59DB#16] ∧
    stored ⟨8⟩ (Memory.ofBytes [1#8, 2#8, 3#8, 4#8, 5#8, 6#8, 0x5B#8, 0x59#8]) = 0x595B#16 := by decide

/-- V3 and V4 of spec/95_test_vectors.md section 2.2, LEN = 256. -/
theorem test_compute_256 :
    compute ⟨256⟩ (Memory.ofBytes (List.replicate 256 0xFF#8)) = 0xAAAA#16 ∧
    compute ⟨256⟩ (Memory.ofBytes ((List.range 256).map (BitVec.ofNat 8))) = 0xAAAB#16 := by decide +kernel

/-! The instructions. -/

/-- V5: a mismatch rewrites the two bytes, low byte first. -/
theorem test_fix_mismatch :
    seenAfter .fix stale4 =
      some ([0x34#8, 0x12#8, 0x3D#8, 0x71#8], 0x0001#16, 0x0000#16, 0x713D#16, some .done) := by decide

/-- V14 with V18's sticky bits set before: a match writes nothing, and FIX leaves the sticky bits. -/
theorem test_fix_match_keeps_sticky :
    seenAfter .fix (withStatus (fresh [1#8, 2#8, 3#8, 4#8, 5#8, 6#8, 0x5B#8, 0x59#8])
        { DONE := false, MATCH := false, ILLCMD := true, AERR := true }) =
      some ([1#8, 2#8, 3#8, 4#8, 5#8, 6#8, 0x5B#8, 0x59#8], 0x0303#16, 0x595B#16, 0x595B#16, some .done) := by decide

/-- V20: NOP leaves STATUS = 0x0101. -/
theorem test_nop :
    seenAfter .nop (withStatus stale4 { DONE := true, MATCH := false, ILLCMD := true, AERR := false }) =
      some ([0x34#8, 0x12#8, 0x00#8, 0x00#8], 0x0101#16, 0x0000#16, 0x0000#16, some .done) := by decide

/-- V31's shape at LEN = 4: the last index reads its byte. -/
theorem test_image_read_last :
    seenAfter (.imgRd 3) fixed4 =
      some ([0x34#8, 0x12#8, 0x3D#8, 0x71#8], 0x0001#16, 0x0000#16, 0x713D#16, some (.byte 0x71#8)) := by decide

/-- P4's `rd.img 4` at LEN = 4: a bus error, AERR only. -/
theorem test_image_read_past_end :
    seenAfter (.imgRd 4) fixed4 =
      some ([0x34#8, 0x12#8, 0x3D#8, 0x71#8], 0x0201#16, 0x0000#16, 0x713D#16, some (.busError .imgRange)) := by decide

/-- V37's shape: writing the byte already there still clears DONE and MATCH. -/
theorem test_image_write_same_byte_clears_flags :
    seenAfter (.imgWr 2 0x3D#8) (withStatus fixed4 allFlags) =
      some ([0x34#8, 0x12#8, 0x3D#8, 0x71#8], 0x0300#16, 0x0000#16, 0x713D#16, some .done) := by decide

/-- V33: an image write far past the end stores nothing. -/
theorem test_image_write_past_end :
    seenAfter (.imgWr 0xFFFF 0x12#8) stale4 =
      some ([0x34#8, 0x12#8, 0x00#8, 0x00#8], 0x0200#16, 0x0000#16, 0x0000#16, some (.busError .imgRange)) := by decide

/-- Every existing register, and V35's offset 5 (spec/20_memory.md R41). -/
theorem test_register_read :
    [0, 1, 2, 3, 4, 5].map (fun off => (nextState (exec (.regRd off) (withStatus fixed4 allFlags))).bind State.response) =
      [some (.word 0x0000#16), some (.word 0x0303#16), some (.word 0x0000#16), some (.word 0x713D#16),
        some (.word 0x0004#16), some (.busError .regUnassigned)] := by decide

/-- V34: `rd.reg LEN` right after reset returns 0x0100. -/
theorem test_register_read_len_after_reset :
    (nextState (exec (.regRd 4) State.reset)).bind State.response = some (.word 0x0100#16) := by decide

/-- V21 to V24, V28 and V36: reserved commands, a read-only register, an unassigned offset; STATUS after and response. -/
theorem test_register_write_errors :
    [(0, 0x0002#16), (0, 0x0003#16), (0, 0x8001#16), (0, 0xFFFF#16), (3, 0x1234#16), (7, 0x0001#16)].map
      (fun p => (seenAfter (.regWr p.1 p.2) fixed4).map fun q => (q.2.1, q.2.2.2.1, q.2.2.2.2)) =
    [some (0x0101#16, 0x713D#16, some .done), some (0x0101#16, 0x713D#16, some .done),
      some (0x0101#16, 0x713D#16, some .done), some (0x0101#16, 0x713D#16, some .done),
      some (0x0001#16, 0x713D#16, some .done), some (0x0201#16, 0x713D#16, some (.busError .regUnassigned))] := by decide

/-- V25 to V27: the W1C bits of STATUS, from 0x0303. -/
theorem test_status_write :
    [0x0100#16, 0x0300#16, 0x00FF#16].map
      (fun v => (seenAfter (.regWr 1 v) (withStatus fixed4 allFlags)).map fun q => q.2.1) =
    [some 0x0203#16, some 0x0003#16, some 0x0303#16] := by decide

/-! The step. -/

/-- The six rows run from reset, each put first as its table word. -/
theorem test_table_words_run_from_reset :
    [(16, 0x0000), (16, 0x0001), (32, 0x00000000), (32, 0x40000000), (32, 0x80000000), (32, 0xC0000000)].map
      (fun p => (nextState (step (State.reset.withFetchWord p.1 p.2))).isSome) =
    [true, true, true, true, true, true] := by decide

/-! Decoding: words written out from spec/30_encoding.md R53, R54 and R61. -/

theorem test_decode_written_out :
    [(16, 0x0000), (16, 0x0001), (16, 0x8001), (32, 0x0000FF00), (32, 0x4000FF12), (32, 0x80030000), (32, 0xC0010300),
      (32, 0xC0000001)].map (fun p => decodeTableWord p.1 p.2) =
    [some .nop, some .fix, some (.regWr 0 0x8001#16), some (.imgRd 255), some (.imgWr 255 0x12#8), some (.regRd 3),
      some (.regWr 1 0x0300#16), some (.regWr 0 0x0001#16)] := by decide

/-- V43, V44, V47, V48, V50, V51: refused, each under its own name. -/
theorem test_decode_refused :
    [0x00000001#32, 0x01000000#32, 0x80080000#32, 0x80010001#32, 0xC0080000#32, 0xFFFFFFFF#32, 0x41000000#32].map
      (fun d => match decode (.descriptor d) with
        | .ok _ => none
        | .error e => some e) =
    [some (.imgRdReservedBits 0x00000001#32), some (.imgRdReservedBits 0x01000000#32),
      some (.regRdReservedBits 0x80080000#32), some (.regRdReservedBits 0x80010001#32),
      some (.regWrReservedBits 0xC0080000#32), some (.regWrReservedBits 0xFFFFFFFF#32),
      some (.imgWrReservedBits 0x41000000#32)] := by decide

/-! The checks of WellFormed: each refuses an ill-formed line, and the largest numbers that fit pass. -/

theorem test_wellFormed_refuses :
    [ScriptLine.basic (.rdImg 65536), .basic (.wrImg 65536 0), .basic (.wrImg 3 0x100), .basic (.rdReg 8),
      .basic (.wrReg 8 0), .basic (.wrReg 0 65536), .ldImg 0 [], .ldImg 65535 [0, 0], .ldImg 0 [0, 256],
      .fill 65536 0 0, .fill 0 65536 0, .fill 0 0 256].map ScriptLine.wellFormed = List.replicate 12 false := by decide

theorem test_wellFormed_accepts :
    [ScriptLine.basic (.rdImg 65535), .basic (.wrImg 65535 255), .basic (.rdReg 7), .basic (.wrReg 7 65535),
      .ldImg 65534 [255, 0], .fill 65535 0 255, .nop].map ScriptLine.wellFormed = List.replicate 7 true := by decide

/-! Scripts. -/

/-- Lines of P1, P3 and P4 of spec/95_test_vectors.md, as text. -/
theorem test_read_lines :
    readLine "wr.reg CMD, 0x0002 ; reserved".toList = .ok (some (.basic (.wrReg 0 2))) ∧
    readLine "ld.img 254, 0x00, 0xA5".toList = .ok (some (.ldImg 254 [0, 165])) ∧
    readLine "rd.status => 0x0001".toList = .ok (some .rdStatus) ∧
    readLine "fill 0, 253, 0x00".toList = .ok (some (.fill 0 253 0)) ∧
    readLine "; a comment".toList = .ok none ∧
    readLine "fix => 1".toList = .error (.unreadable "fix => 1".toList) := by decide +kernel

/-- `fill` with `hi < lo` is nothing; `ld.img` counts up from its index (spec/30_encoding.md R61). -/
theorem test_assemble :
    assemble [.fill 3 2 0, .ldImg 16 [1, 2], .clrerr] =
      .ok [.imgWr 16 1#8, .imgWr 17 2#8, .regWr 1 0x0300#16] := by decide

/-- The host's flow on a short input (spec/70_reset_and_hazards.md R109) and a flow out of order (R108). -/
theorem test_flash_flow :
    flashFlow 4 [1#8, 2#8, 3#8] = .error .shortRead ∧
    KeepsFlashOrder [.transaction (.imgWr 0 1#8), .eraseDevice, .writeDevice, .resetDevice] = false := by decide

/-! Witnesses: a state and operands that meet an obligation's hypotheses, one theorem for each obligation. -/

/-- A sound state in which a sticky run of transactions is due: an image write, FIX, a read past the end. -/
def busy4 : State :=
  { fixed4 with script := [.descriptor 0x40000011#32, .command 0x0001#16, .descriptor 0x00000400#32] }

theorem witness_LaunchHoldsAnyImage :
    (⟨4⟩ : Config).legal = true ∧ [0x34#8, 0x12#8, 0x00#8, 0x00#8].length = (⟨4⟩ : Config).LEN := by decide

theorem witness_IllegalBuildIsRefused :
    (⟨5⟩ : Config).LEN % 2 = 1 ∧ (⟨2⟩ : Config).LEN < 4 ∧ 65534 < (⟨65536⟩ : Config).LEN ∧
    (⟨4⟩ : Config).legal = true ∧ (⟨65534⟩ : Config).legal = true ∧ (⟨5⟩ : Config).legal = false ∧
    (⟨2⟩ : Config).legal = false ∧ (⟨65536⟩ : Config).legal = false ∧ stale4.config = ⟨4⟩ ∧
    [1#8].length ≠ (⟨4⟩ : Config).LEN := by decide

theorem witness_LaunchMeetsInvariant : ∃ s, launch ⟨4⟩ [0x34#8, 0x12#8, 0x00#8, 0x00#8] = .ok s := ⟨_, rfl⟩

theorem witness_StepKeepsInvariant : busy4.Inv ∧ ∃ t, step busy4 = .next t := ⟨by decide, _, rfl⟩

theorem witness_StepRunsDecodedTransaction :
    busy4.config.legal = true ∧ decode (.descriptor 0x40000011#32) = .ok (.imgWr 0 0x11#8) ∧
    busy4.script = .descriptor 0x40000011#32 :: [.command 0x0001#16, .descriptor 0x00000400#32] := by decide

theorem witness_TableWordRunsNext :
    stale4.config.legal = true ∧ decodeTableWord 32 0x4000FF12 = some (.imgWr 255 0x12#8) := by decide

theorem witness_StepRefusesWhatSpellsNoTransaction :
    ∃ s : State, s.config.legal = true ∧ s.script = [.descriptor 0x00000001#32] ∧
      decode (.descriptor 0x00000001#32) = .error (.imgRdReservedBits 0x00000001#32) :=
  ⟨{ stale4 with script := [.descriptor 0x00000001#32] }, by decide, rfl, by decide⟩

theorem witness_IdleEngineHoldsState : stale4.config.legal = true ∧ stale4.script = [] := by decide

theorem witness_WholeScriptRunsToItsEnd : busy4.Inv ∧ busy4.ScriptDecodes := by
  refine ⟨by decide, ?_⟩
  intro e he
  simp only [busy4, List.mem_cons, List.not_mem_nil, or_false] at he
  rcases he with rfl | rfl | rfl
  exacts [⟨.imgWr 0 0x11#8, by decide⟩, ⟨.fix, by decide⟩, ⟨.imgRd 4, by decide⟩]

theorem witness_EncodeOfDecodeIsTheDescriptor :
    decode (.descriptor 0x80070000#32) = .ok (.regRd 7) := by decide

/-- Each clause about a script: a refused descriptor, and one each for an index and an offset that do not exist. -/
theorem witness_DescriptorDecodesFieldByField :
    stale4.config.legal = true ∧
    decode (.descriptor 0xC0080000#32) = .error (.regWrReservedBits 0xC0080000#32) ∧
    decode (.descriptor 0x00000400#32) = .ok (.imgRd 4) ∧ stale4.config.LEN ≤ (4 : Index).toNat ∧
    decode (.descriptor 0xC0050000#32) = .ok (.regWr 5 0x0000#16) ∧ 5 ≤ (5 : Offset).toNat := by decide

theorem witness_TableRowsDecodeToTheirInstruction :
    (Instr.row (.regWr 0 0x0000#16)).fits (.descriptor 0xC007FFFF#32) = true ∧
    (Instr.row .fix).fits (.command 0x0001#16) = true := by decide

theorem witness_ImageReadResult :
    fixed4.Sound ∧ (3 : Index).toNat < fixed4.config.LEN ∧ fixed4.config.LEN ≤ (4 : Index).toNat := by decide

theorem witness_ImageWriteResult :
    stale4.Sound ∧ (3 : Index).toNat < stale4.config.LEN ∧ stale4.config.LEN ≤ (0xFFFF : Index).toNat := by decide

theorem witness_WrittenByteReadsBack : stale4.Sound ∧ (0 : Index).toNat < stale4.config.LEN := by decide

theorem witness_RegisterReadResult :
    fixed4.config.legal = true ∧ 5 ≤ (5 : Offset).toNat ∧ 5 ≤ (7 : Offset).toNat := by decide

/-- A read of STATUS, and two write values that differ in reserved bits only. -/
theorem witness_ReservedStatusBitsReadZeroIgnoreWrites :
    (∃ t w, exec (.regRd 1) fixed4 = .next t ∧ t.response = some (.word w)) ∧
    0x0100#16 ≠ 0xFDFC#16 ∧
    ∀ k < 16, k ≤ 1 ∨ k = 8 ∨ k = 9 → (0x0100#16).getLsbD k = (0xFDFC#16).getLsbD k :=
  ⟨⟨_, _, rfl, rfl⟩, by decide, by decide⟩

theorem witness_ReservedCommandResult : 0x0002 ≤ (0x0002#16).toNat ∧ 0x0002 ≤ (0xFFFF#16).toNat := by decide

theorem witness_CommandWriteIssuesTheCommand : 0x8001#16 ≠ 0x0000#16 ∧ 0x8001#16 ≠ 0x0001#16 := by decide

theorem witness_ReadOnlyWriteResult :
    2 ≤ (2 : Offset).toNat ∧ (2 : Offset).toNat ≤ 4 ∧ 2 ≤ (4 : Offset).toNat ∧ (4 : Offset).toNat ≤ 4 := by decide

theorem witness_UnassignedRegisterWriteResult : 5 ≤ (5 : Offset).toNat ∧ 5 ≤ (7 : Offset).toNat := by decide

theorem witness_BusErrorChangesOnlyAerr :
    ∃ t, exec (.imgRd 4) stale4 = .next t ∧ t.response = some (.busError .imgRange) := ⟨_, rfl, by decide⟩

/-- Each kind of event: an index past the end, an unassigned offset, a reserved command. -/
theorem witness_ErrorEventsAreTheListedOnes :
    (∃ t, exec (.imgWr 4 0#8) stale4 = .next t ∧ t.response = some (.busError .imgRange)) ∧
    (∃ t, exec (.regRd 5) stale4 = .next t ∧ t.response = some (.busError .regUnassigned)) ∧
    (∃ t, exec (.regWr 0 0x0002#16) stale4 = .next t ∧ t.engine.STATUS.ILLCMD = true) ∧
    0x0002 ≤ (0x0002#16).toNat ∧ stale4.engine.STATUS.AERR = false ∧ stale4.engine.STATUS.ILLCMD = false :=
  ⟨⟨_, rfl, by decide⟩, ⟨_, rfl, by decide⟩, ⟨_, rfl, by decide⟩, by decide, by decide, by decide⟩

theorem witness_FlagsDecideNothing :
    ∃ t t', (withStatus stale4 allFlags).config = stale4.config ∧
      (withStatus stale4 allFlags).engine =
        { stale4.engine with STATUS := (withStatus stale4 allFlags).engine.STATUS } ∧
      exec .fix stale4 = .next t ∧ exec .fix (withStatus stale4 allFlags) = .next t' ∧ Instr.fix ≠ .regRd 1 :=
  ⟨_, _, rfl, rfl, rfl, rfl, by decide⟩

theorem witness_WordsAreLittleEndian : (⟨4⟩ : Config).legal = true := by decide

/-- Two images that agree on the payload only. -/
theorem witness_ChecksumIsTheSeededFoldOverThePayload :
    (0 < (⟨4⟩ : Config).LEN / 2 - 1) ∧ stale4.engine.img ≠ fixed4.engine.img ∧
    ∀ i, i + 2 < (⟨4⟩ : Config).LEN →
      Memory.byteAt stale4.engine.img i = Memory.byteAt fixed4.engine.img i := by
  refine ⟨by decide, by decide, fun i hi => ?_⟩
  have h : i = 0 ∨ i = 1 := by simp only at hi; omega
  rcases h with rfl | rfl <;> decide

theorem witness_RotationAndStepAreOneToOne :
    checksumStep 0xAAAA#16 0x1234#16 = checksumStep 0xAAAA#16 0x1234#16 := rfl

/-- A sound state with a mismatch and one with a match. -/
theorem witness_FixResult :
    stale4.Sound ∧ compute stale4.config stale4.engine.img ≠ stored stale4.config stale4.engine.img ∧
    fixed4.Sound ∧ compute fixed4.config fixed4.engine.img = stored fixed4.config fixed4.engine.img := by decide

theorem witness_FixMakesTheImageAFixedPoint : stale4.Sound ∧ ∃ t, exec .fix stale4 = .next t := ⟨by decide, _, rfl⟩

theorem witness_FixReadsTheImageAlone :
    ∃ t t', (withStatus stale4 allFlags).config = stale4.config ∧
      (withStatus stale4 allFlags).engine.img = stale4.engine.img ∧
      exec .fix stale4 = .next t ∧ exec .fix (withStatus stale4 allFlags) = .next t' := ⟨_, _, rfl, rfl, rfl, rfl⟩

theorem witness_PayloadDecidesTheRepairedImage :
    stale4.Sound ∧ fixed4.Sound ∧ fixed4.config = stale4.config ∧
    (∀ i, i + 2 < stale4.config.LEN → Memory.read fixed4.engine.img i = Memory.read stale4.engine.img i) ∧
    (∃ t, exec .fix stale4 = .next t) ∧ ∃ t', exec .fix fixed4 = .next t' := by
  refine ⟨by decide, by decide, by decide, fun i hi => ?_, ⟨_, rfl⟩, _, rfl⟩
  have hl : stale4.config.LEN = 4 := rfl
  have h : i = 0 ∨ i = 1 := by omega
  rcases h with rfl | rfl <;> decide

theorem witness_AllZeroImageGetsChecksum5555 :
    (fresh (List.replicate 256 0x00#8)).Sound ∧ (fresh (List.replicate 256 0x00#8)).config.LEN = 256 ∧
    (∀ i < 256, Memory.read (fresh (List.replicate 256 0x00#8)).engine.img i = some 0x00#8) ∧
    (fresh (List.replicate 256 0x00#8)).engine.STATUS.ILLCMD = false ∧
    (fresh (List.replicate 256 0x00#8)).engine.STATUS.AERR = false := by decide +kernel

/-- Each clause: FIX, an accepted image write, and another transaction (an image write at the first absent index). -/
theorem witness_OnlyFixSetsDone :
    (∃ t, exec .fix stale4 = .next t) ∧ (∃ t, exec (.regWr 0 0x0001#16) stale4 = .next t) ∧
    (∃ t, exec (.imgWr 3 0#8) fixed4 = .next t) ∧ (3 : Index).toNat < fixed4.config.LEN ∧
    (∃ t, exec (.imgWr 4 0#8) fixed4 = .next t) ∧ fixed4.config.LEN ≤ (4 : Index).toNat :=
  ⟨⟨_, rfl⟩, ⟨_, rfl⟩, ⟨_, rfl⟩, by decide, ⟨_, rfl⟩, by decide⟩

/-- Each clause: FIX on a mismatch and on a match, an accepted image write, and NOP. -/
theorem witness_OnlyFixWritesMatch :
    (∃ t, exec .fix stale4 = .next t) ∧ (∃ t, exec .fix fixed4 = .next t) ∧
    (∃ t, exec (.imgWr 0 0#8) fixed4 = .next t) ∧ (0 : Index).toNat < fixed4.config.LEN ∧
    (∃ t, exec .nop fixed4 = .next t) := ⟨⟨_, rfl⟩, ⟨_, rfl⟩, ⟨_, rfl⟩, by decide, ⟨_, rfl⟩⟩

/-- ILLCMD is set, kept and cleared. -/
theorem witness_IllcmdIsStickyUntilCleared :
    (∃ t, exec (.regWr 0 0x0002#16) stale4 = .next t ∧ t.engine.STATUS.ILLCMD = true) ∧
    (∃ t, exec .fix (withStatus stale4 allFlags) = .next t ∧ t.engine.STATUS.ILLCMD = true) ∧
    (∃ t, exec (.regWr 1 0x0100#16) (withStatus stale4 allFlags) = .next t ∧ t.engine.STATUS.ILLCMD = false) :=
  ⟨⟨_, rfl, by decide⟩, ⟨_, rfl, by decide⟩, ⟨_, rfl, by decide⟩⟩

/-- AERR is set, kept and cleared. -/
theorem witness_AerrIsStickyUntilCleared :
    (∃ t, exec (.regRd 7) stale4 = .next t ∧ t.engine.STATUS.AERR = true) ∧
    (∃ t, exec .nop (withStatus stale4 allFlags) = .next t ∧ t.engine.STATUS.AERR = true) ∧
    (∃ t, exec (.regWr 1 0x0200#16) (withStatus stale4 allFlags) = .next t ∧ t.engine.STATUS.AERR = false) :=
  ⟨⟨_, rfl, by decide⟩, ⟨_, rfl, by decide⟩, ⟨_, rfl, by decide⟩⟩

/-- Each clause: FIX, another transaction, and a host write to each register. -/
theorem witness_OnlyFixWritesChecksumRegisters :
    (∃ t, exec .fix stale4 = .next t) ∧ (∃ t, exec (.regRd 2) fixed4 = .next t) ∧
    (∃ t, exec (.regWr 2 0x1234#16) fixed4 = .next t) ∧ (∃ t, exec (.regWr 3 0x1234#16) fixed4 = .next t) :=
  ⟨⟨_, rfl⟩, ⟨_, rfl⟩, ⟨_, rfl⟩, ⟨_, rfl⟩⟩

theorem witness_LenRegisterIsConstant : ∃ t, exec (.regWr 4 0x1234#16) fixed4 = .next t := ⟨_, rfl⟩

/-- Each clause: a byte an image write changes, and one FIX changes. -/
theorem witness_ImageBytesChangeOnlyWhereWritten :
    stale4.Sound ∧
    (∃ t, exec (.imgWr 3 0x99#8) stale4 = .next t ∧
      Memory.read t.engine.img 3 ≠ Memory.read stale4.engine.img 3) ∧
    (∃ t, exec .fix stale4 = .next t ∧ Memory.read t.engine.img 2 ≠ Memory.read stale4.engine.img 2) :=
  ⟨by decide, ⟨_, rfl, by decide⟩, ⟨_, rfl, by decide⟩⟩

/-- Each form: NOP, both reads, and the two register writes nearest to FIX's. -/
theorem witness_TransactionsThatStoreNothingFrame :
    (∃ t, exec .nop fixed4 = .next t) ∧ (∃ t, exec (.imgRd 4) fixed4 = .next t) ∧
    (∃ t, exec (.regRd 5) fixed4 = .next t) ∧
    (∃ t, exec (.regWr 0 0x0002#16) fixed4 = .next t) ∧ ¬ ((0 : Offset) = 0 ∧ 0x0002#16 = 0x0001#16) ∧
    (∃ t, exec (.regWr 1 0x0001#16) fixed4 = .next t) ∧ ¬ ((1 : Offset) = 0 ∧ 0x0001#16 = 0x0001#16) :=
  ⟨⟨_, rfl⟩, ⟨_, rfl⟩, ⟨_, rfl⟩, ⟨_, rfl⟩, by decide, ⟨_, rfl⟩, by decide⟩

theorem witness_ReadsHaveNoSideEffectAndRepeat :
    (∃ t u, exec (.imgRd 3) fixed4 = .next t ∧ exec (.imgRd 3) t = .next u) ∧ (3 : Index).toNat < fixed4.config.LEN ∧
    (∃ t u, exec (.regRd 4) fixed4 = .next t ∧ exec (.regRd 4) t = .next u) ∧ (4 : Offset).toNat ≤ 4 :=
  ⟨⟨_, _, rfl, rfl⟩, by decide, ⟨_, _, rfl, rfl⟩, by decide⟩

/-- A refused line, the first absent index of a LEN = 4 engine and the last index, and the offsets 5 and 7. -/
theorem witness_ScriptLineAcceptedExactlyWhenNumbersFit :
    assembleLine (.basic (.wrImg 3 0x100)) = .error (.doesNotFit (.basic (.wrImg 3 0x100))) ∧
    [255] ≠ [] ∧ 65535 + [255].length ≤ 65536 ∧ (∀ x ∈ [255], x ≤ 255) ∧ 65535 < 65536 ∧ (∃ x ∈ [0, 256], 255 < x) ∧
    stale4.config.LEN ≤ 4 ∧ 4 ≤ 65535 ∧ stale4.config.LEN ≤ 65535 ∧ 255 ≤ 255 ∧ 5 ≤ 5 ∧ 5 ≤ 7 ∧ 7 ≤ 7 ∧
    65535 ≤ 65535 := by decide

theorem witness_ScriptLinesSpellTheirDescriptors : 65535 ≤ 65535 ∧ 255 ≤ 255 ∧ 7 ≤ 7 ∧ 0 ≤ 65535 := by decide

/-- An `ld.img` that ends at the last index, and a `fill` of one byte there. -/
theorem witness_PseudoInstructionsExpand :
    [1, 255] ≠ [] ∧ (∀ b ∈ [1, 255], b ≤ 255) ∧ 65534 + [1, 255].length ≤ 65536 ∧ [1, 255][1]? = some 255 ∧
    65535 ≤ 65535 ∧ 65535 + 0 ≤ 65535 := by decide

theorem witness_FlashFlowKeepsItsOrder : ∃ acts, flashFlow 4 [1#8, 2#8, 3#8, 4#8, 5#8] = .ok acts := ⟨_, rfl⟩

theorem witness_ShortInputStopsTheFlashFlow : [1#8, 2#8, 3#8].length < 4 ∧ 3 ≤ [1#8, 2#8, 3#8].length := by decide

theorem witness_ReservedCommandWordIsItsRegisterWrite :
    0x0002 ≤ (0x0002#16 : Word).toNat ∧ 0x0002 ≤ (0xFFFF#16 : Word).toNat := by decide

/-- A script that is refused at its second line, one that is issued, and both kinds of `ld.img` line. -/
theorem witness_RefusedLinesFollowTheModelsChoices :
    stale4.issueScript [.fix, .basic (.wrImg 3 0x100)] = .error (.doesNotFit (.basic (.wrImg 3 0x100))) ∧
    (∃ t, stale4.issueScript [.fix, .fill 0 1 0] = .ok t) ∧ 65536 < 65535 + [1, 2].length :=
  ⟨by decide, ⟨_, rfl⟩, by decide⟩

theorem witness_FlashFlowReadsBackTheRepairedImage :
    stale4.Sound ∧ stale4.script = [] ∧
      ∃ acts, flashFlow stale4.config.LEN [1#8, 2#8, 3#8, 4#8, 5#8] = .ok acts :=
  ⟨by decide, rfl, _, rfl⟩

theorem witness_BackupStagingReadsBackWhatWasWritten :
    stale4.Sound ∧ stale4.script = [] ∧ [1#8, 2#8, 3#8, 4#8].length = stale4.config.LEN := by decide

end Sys2Proof.Tests
end

section
/-! SUPPORT. The transactions of spec/10_state.md as equations: the next state of each kind of transaction, said once by
the name of its operands, and which transactions keep each flag and register (the table of R30). -/

namespace Sys2Proof.Machine

/-! Which transactions run FIX, and which command words are reserved (spec/30_encoding.md R54). -/

theorem runsFix_iff (i : Instr) : runsFix i = true ↔ i = .fix ∨ i = .regWr 0 0x0001#16 := by
  cases i <;> simp [runsFix]

theorem runsFix_eq_false_iff (i : Instr) : runsFix i = false ↔ i ≠ .fix ∧ i ≠ .regWr 0 0x0001#16 := by
  rw [← Bool.not_eq_true, runsFix_iff, not_or]

theorem two_le_toNat_iff (v : Word) : 0x0002 ≤ v.toNat ↔ v ≠ 0x0000#16 ∧ v ≠ 0x0001#16 := by
  bv_omega

/-! The STATUS word (spec/10_state.md R19, R24) and the bits a STATUS write reads (spec/41_control.md R82). -/

/-- The whole layout of STATUS: four live bits, every other bit 0. -/
theorem Status.getLsbD_toWord (f : Status) (k : Nat) :
    f.toWord.getLsbD k =
      (decide (k = 0) && f.DONE || decide (k = 1) && f.MATCH ||
        decide (k = 8) && f.ILLCMD || decide (k = 9) && f.AERR) := by
  by_cases hk : k < 16
  · obtain ⟨d, m, i, a⟩ := f
    revert k d m i a
    decide
  · rw [BitVec.getLsbD_of_ge _ _ (by omega)]
    simp [show k ≠ 0 ∧ k ≠ 1 ∧ k ≠ 8 ∧ k ≠ 9 by omega]

theorem Engine.toWord_afterReset (m : Memory) : (Engine.afterReset m).STATUS.toWord = 0x0000#16 :=
  BitVec.eq_of_getLsbD_eq fun k _ => by simp [Status.getLsbD_toWord]

theorem Status.clearSticky_congr (f : Status) {v v' : Word} (h8 : v.getLsbD 8 = v'.getLsbD 8)
    (h9 : v.getLsbD 9 = v'.getLsbD 9) : f.clearSticky v = f.clearSticky v' := by
  rw [Status.clearSticky, Status.clearSticky, h8, h9]

/-! The next state of a transaction, by its kind. -/

theorem exec_of_runsFix {i : Instr} (s : State) (h : runsFix i = true) :
    exec i s = s.complete (s.engine.fix s.config) := by
  obtain rfl | rfl := (runsFix_iff i).1 h <;> rfl

theorem exec_imgWr_of_lt {n : Index} {s : State} (b : Byte) (h : n.toNat < s.config.LEN) :
    exec (.imgWr n b) s = s.complete
      ({ s.engine with
          img := Memory.write s.engine.img n.toNat b
          STATUS := s.engine.STATUS.afterImageWrite }, .done) := by
  rw [exec_eq_complete, Engine.perform, Engine.imageWrite_of_lt _ b h]

theorem engine_of_exec_runsFix {i : Instr} {s t : State} (h : exec i s = .next t) (hf : runsFix i = true) :
    t.engine = (s.engine.fix s.config).1 := by
  rw [exec_of_runsFix s hf, State.complete_eq_next] at h
  rw [← h]

theorem STATUS_of_exec_imgWr {n : Index} {b : Byte} {s t : State} (h : exec (.imgWr n b) s = .next t)
    (hn : n.toNat < s.config.LEN) : t.engine.STATUS = s.engine.STATUS.afterImageWrite := by
  rw [exec_imgWr_of_lt b hn, State.complete_eq_next] at h
  rw [← h]

theorem exec_regRd_of_regAt {off : Offset} {r : RegName} (s : State) (h : regAt off = some r) :
    exec (.regRd off) s = s.complete (s.engine, .word (s.engine.regValue s.config r)) := by
  rw [exec_eq_complete, Engine.perform, Engine.registerRead, h]

theorem exec_regWr_of_regAt {off : Offset} {r : RegName} (s : State) (v : Word) (h : regAt off = some r) :
    exec (.regWr off v) s = s.complete (s.engine.regSet s.config v r) := by
  rw [exec_eq_complete, Engine.perform, Engine.registerWrite, h]

theorem exec_reservedCommand (s : State) {v : Word} (h0 : v ≠ 0x0000#16) (h1 : v ≠ 0x0001#16) :
    exec (.regWr 0 v) s = s.complete s.engine.reserved := by
  rw [exec_regWr_of_regAt (off := 0) s v regAt_zero, Engine.regSet, Engine.runCommand_reserved _ _ h0 h1]

theorem exec_statusWrite (s : State) (v : Word) :
    exec (.regWr 1 v) s =
      s.complete ({ s.engine with STATUS := s.engine.STATUS.clearSticky v }, .done) :=
  exec_regWr_of_regAt s v regAt_one

/-- CSUM_OLD, CSUM_NEW and LEN ignore writes (spec/41_control.md R83). -/
theorem exec_readOnlyWrite {off : Offset} (s : State) (v : Word) (h : 2 ≤ off.toNat) (h' : off.toNat ≤ 4) :
    exec (.regWr off v) s = s.complete (s.engine, .done) := by
  obtain hr | hr | hr := regAt_readOnly off h h' <;> exact exec_regWr_of_regAt s v hr

/-! What a transaction keeps, read off the cases of Engine.Effect (the table of spec/10_state.md R30). -/

section
variable {c : Config} {e : Engine} {i : Instr} {r : Engine × Response}

theorem Engine.Effect.keeps_DONE_MATCH (h : Engine.Effect c e i r) (hf : runsFix i = false)
    (hw : ∀ n b, i = .imgWr n b → c.LEN ≤ n.toNat) :
    r.1.STATUS.DONE = e.STATUS.DONE ∧ r.1.STATUS.MATCH = e.STATUS.MATCH := by
  cases h with
  | unchanged | reserved | statusWrite | busError => exact ⟨rfl, rfl⟩
  | fix _ h => simp [h] at hf
  | imageWrite n b h => exact absurd h (Nat.not_lt.2 (hw n b rfl))

theorem Engine.Effect.keeps_CSUM (h : Engine.Effect c e i r) (hf : runsFix i = false) :
    r.1.CSUM_OLD = e.CSUM_OLD ∧ r.1.CSUM_NEW = e.CSUM_NEW := by
  cases h with
  | unchanged | imageWrite | reserved | statusWrite | busError => exact ⟨rfl, rfl⟩
  | fix _ h => simp [h] at hf

theorem Engine.Effect.keeps_ILLCMD (h : Engine.Effect c e i r) (hr : ∀ v, i = .regWr 0 v → ¬ 0x0002 ≤ v.toNat)
    (hs : ∀ v, i ≠ .regWr 1 v) : r.1.STATUS.ILLCMD = e.STATUS.ILLCMD := by
  cases h with
  | unchanged | fix | imageWrite | busError => rfl
  | reserved v h0 h1 => exact absurd ((two_le_toNat_iff v).2 ⟨h0, h1⟩) (hr v rfl)
  | statusWrite v => exact absurd rfl (hs v)

theorem Engine.Effect.AERR_iff (h : Engine.Effect c e i r) (hs : ∀ v, i ≠ .regWr 1 v) :
    r.1.STATUS.AERR = true ↔ (∃ k, r.2 = .busError k) ∨ e.STATUS.AERR = true := by
  cases h with
  | unchanged _ _ _ _ hr => simp [hr]
  | fix | imageWrite | reserved | busError => simp
  | statusWrite v => exact absurd rfl (hs v)

end

end Sys2Proof.Machine
end

section
/-! PROOFS. The obligations of spec/10_state.md. -/

namespace Sys2Proof.Machine

/-- Settles O21: a STATUS read answers Status.toWord, whose reserved bits are 0, and a STATUS write is clearSticky,
which reads bits 8 and 9 alone. -/
theorem reservedStatusBitsReadZeroIgnoreWrites : Obligations.ReservedStatusBitsReadZeroIgnoreWrites := by
  refine ⟨fun s t w h hw k hk => ?_, fun s v v' hv => ?_⟩
  · rw [exec_regRd_of_regAt (off := 1) s regAt_one, State.complete_eq_next] at h
    subst h
    obtain rfl : s.engine.STATUS.toWord = w := by simpa [Engine.regValue] using hw
    rw [Status.getLsbD_toWord]
    simp [show k ≠ 0 ∧ k ≠ 1 ∧ k ≠ 8 ∧ k ≠ 9 by omega]
  · rw [exec_statusWrite, exec_statusWrite,
      Status.clearSticky_congr _ (hv 8 (by decide) (by decide)) (hv 9 (by decide) (by decide))]

/-- Settles O41: by the kind of the transaction; what is neither FIX nor an accepted image write keeps DONE. -/
theorem onlyFixSetsDone : Obligations.OnlyFixSetsDone := by
  refine ⟨fun _ m => Engine.afterReset_DONE m, fun i s t h => ⟨fun hi => ?_, ?_, fun hf hf' hw => ?_⟩⟩
  · rw [engine_of_exec_runsFix h ((runsFix_iff i).2 hi), Engine.fix_STATUS, Status.afterFix_DONE]
  · rintro n b rfl hn
    rw [STATUS_of_exec_imgWr h hn, Status.afterImageWrite_DONE]
  · obtain ⟨-, -, r, he, -⟩ := exec_cases h
    exact (he.keeps_DONE_MATCH ((runsFix_eq_false_iff i).2 ⟨hf, hf'⟩) hw).1

/-- Settles O42: by the kind of the transaction, as for DONE; FIX writes the outcome of the comparison. -/
theorem onlyFixWritesMatch : Obligations.OnlyFixWritesMatch := by
  refine ⟨fun _ m => Engine.afterReset_MATCH m, fun i s t h => ⟨fun hi => ?_, ?_, fun hf hf' hw => ?_⟩⟩
  · rw [engine_of_exec_runsFix h ((runsFix_iff i).2 hi), Engine.fix_STATUS, Status.afterFix_MATCH, decide_eq_true_iff]
  · rintro n b rfl hn
    rw [STATUS_of_exec_imgWr h hn, Status.afterImageWrite_MATCH]
  · obtain ⟨-, -, r, he, -⟩ := exec_cases h
    exact (he.keeps_DONE_MATCH ((runsFix_eq_false_iff i).2 ⟨hf, hf'⟩) hw).2

/-- Settles O43: a reserved command sets ILLCMD, a STATUS write clears it by bit 8, every other transaction keeps it. -/
theorem illcmdIsStickyUntilCleared : Obligations.IllcmdIsStickyUntilCleared := by
  refine ⟨fun _ m => Engine.afterReset_ILLCMD m, fun i s t h => ?_⟩
  by_cases hr : ∃ v : Word, i = .regWr 0 v ∧ 0x0002 ≤ v.toNat
  · obtain ⟨v, rfl, hv⟩ := hr
    obtain ⟨h0, h1⟩ := (two_le_toNat_iff v).1 hv
    rw [exec_reservedCommand s h0 h1, State.complete_eq_next] at h
    subst h
    exact iff_of_true rfl (.inl ⟨v, rfl, hv⟩)
  by_cases hs : ∃ v, i = .regWr 1 v
  · obtain ⟨v, rfl⟩ := hs
    rw [exec_statusWrite, State.complete_eq_next] at h
    subst h
    simp
  · obtain ⟨-, -, r, he, -⟩ := exec_cases h
    have hk : t.engine.STATUS.ILLCMD = s.engine.STATUS.ILLCMD :=
      he.keeps_ILLCMD (fun v hi hv => hr ⟨v, hi, hv⟩) (not_exists.1 hs)
    rw [hk, or_iff_right hr]
    exact (and_iff_left fun v hi => absurd ⟨v, hi⟩ hs).symm

/-- Settles O44: a STATUS write clears AERR by bit 9; of the other transactions those that answer a bus error set it,
the rest keep it. -/
theorem aerrIsStickyUntilCleared : Obligations.AerrIsStickyUntilCleared := by
  refine ⟨fun _ m => Engine.afterReset_AERR m, fun i s t h => ?_⟩
  by_cases hs : ∃ v, i = .regWr 1 v
  · obtain ⟨v, rfl⟩ := hs
    rw [exec_statusWrite, State.complete_eq_next] at h
    subst h
    simp
  · obtain ⟨-, -, r, he, hr⟩ := exec_cases h
    have ha := he.AERR_iff (not_exists.1 hs)
    rw [hr, and_iff_left fun v hi => absurd ⟨v, hi⟩ hs]
    simpa using ha

/-- Settles O45: FIX writes both registers, every other transaction keeps them, and a write to their offsets is
ignored. -/
theorem onlyFixWritesChecksumRegisters : Obligations.OnlyFixWritesChecksumRegisters := by
  refine ⟨fun _ _ => ⟨rfl, rfl⟩, fun i s t h => ⟨fun hi => ?_, fun hf hf' => ?_, fun v hi => ?_⟩⟩
  · rw [engine_of_exec_runsFix h ((runsFix_iff i).2 hi)]
    exact ⟨Engine.fix_CSUM_OLD .., Engine.fix_CSUM_NEW ..⟩
  · obtain ⟨-, -, r, he, -⟩ := exec_cases h
    exact he.keeps_CSUM ((runsFix_eq_false_iff i).2 ⟨hf, hf'⟩)
  · have hx : exec i s = s.complete (s.engine, .done) := by
      obtain rfl | rfl := hi <;> exact exec_readOnlyWrite s v (by decide) (by decide)
    rw [hx, State.complete_eq_next] at h
    exact h.symm

/-- Settles O1: the launch answers the reset state over the given bytes, and the two reads are those of
STATUS and LEN. -/
theorem launchHoldsAnyImage : Obligations.LaunchHoldsAnyImage := by
  intro c image hc hlen
  refine ⟨State.afterReset c (Memory.ofBytes image), launch_eq_ok.2 ⟨hc, hlen, rfl⟩, rfl, Memory.read_ofBytes image,
    rfl, ?_, rfl, rfl, exec_regRd_of_regAt (off := 4) _ regAt_four⟩
  rw [exec_regRd_of_regAt (off := 1) _ regAt_one, Engine.regValue, State.afterReset_engine, Engine.toWord_afterReset,
    State.complete]

/-- Settles O24: the write runs the command its data decodes to; CMD has no storage to read. -/
theorem commandWriteIssuesTheCommand : Obligations.CommandWriteIssuesTheCommand := by
  intro s
  refine ⟨?_, ?_, fun v h0 h1 => exec_reservedCommand s h0 h1, exec_regRd_of_regAt (off := 0) s regAt_zero⟩
  · exact exec_regWr_of_regAt (off := 0) s 0x0000#16 regAt_zero
  · rw [exec_of_runsFix s (i := .regWr 0 0x0001#16) rfl, exec_of_runsFix s (i := .fix) rfl]

/-- Settles O46: no transaction changes the configuration, which is all that a read of LEN answers. -/
theorem lenRegisterIsConstant : Obligations.LenRegisterIsConstant := by
  refine ⟨State.afterReset_config, fun i s t h => ?_⟩
  obtain ⟨hc, -, -⟩ := exec_cases h
  exact ⟨hc, hc ▸ exec_regRd_of_regAt (off := 4) t regAt_four, fun v => exec_readOnlyWrite t v (by decide) (by decide)⟩

end Sys2Proof.Machine
end

section
/-! SUPPORT. The image transactions and the register read of spec/20_memory.md as equations: the next state where the
index or the offset exists (beside `exec_imgWr_of_lt` and `exec_regRd_of_regAt`), and the bus error where it does not. -/

namespace Sys2Proof.Machine

theorem exec_imgRd_of_lt {n : Index} {s : State} (h : n.toNat < s.config.LEN) :
    exec (.imgRd n) s = s.complete (s.engine, .byte (Memory.byteAt s.engine.img n.toNat)) := by
  rw [exec_eq_complete, Engine.perform, Engine.imageRead_of_lt _ h]

theorem exec_imgRd_of_le {n : Index} {s : State} (h : s.config.LEN ≤ n.toNat) :
    exec (.imgRd n) s = s.complete (s.engine.busError .imgRange) := by
  rw [exec_eq_complete, Engine.perform, Engine.imageRead_of_le _ h]

theorem exec_imgWr_of_le {n : Index} {s : State} (b : Byte) (h : s.config.LEN ≤ n.toNat) :
    exec (.imgWr n b) s = s.complete (s.engine.busError .imgRange) := by
  rw [exec_eq_complete, Engine.perform, Engine.imageWrite_of_le _ b h]

theorem exec_regRd_of_le {off : Offset} (s : State) (h : 5 ≤ off.toNat) :
    exec (.regRd off) s = s.complete (s.engine.busError .regUnassigned) := by
  rw [exec_eq_complete, Engine.perform, Engine.registerRead_of_le _ h]

/-- A legal LEN fits the 16 bits of its register (spec/00_scope.md R6). -/
theorem Engine.toNat_regValue_LEN {c : Config} (e : Engine) (h : c.legal = true) :
    (e.regValue c .LEN).toNat = c.LEN := by
  obtain ⟨-, -, hle⟩ := (Config.legal_iff c).1 h
  rw [Engine.regValue, BitVec.toNat_ofNat, Nat.mod_eq_of_lt (by omega)]

end Sys2Proof.Machine
end

section
/-! PROOFS. The obligations of spec/20_memory.md. -/

namespace Sys2Proof.Machine

/-- Settles O17: in a sound state an index below LEN has a cell, whose byte is the response; from LEN on the read is a
bus error. -/
theorem imageReadResult : Obligations.ImageReadResult := by
  intro s i ⟨_, hwf, hlen⟩
  refine ⟨fun hi => ?_, fun hi => exec_imgRd_of_le hi⟩
  have hcell : i.toNat < s.engine.img.length := hlen ▸ hi
  exact ⟨_, Memory.read_eq_byteAt hwf hcell, exec_imgRd_of_lt hi⟩

/-- Settles O18: below LEN the next image is `Memory.write`, of which `Memory.read_write` says every read; from LEN on
the write is a bus error. -/
theorem imageWriteResult : Obligations.ImageWriteResult := by
  intro s i b ⟨_, hwf, hlen⟩
  refine ⟨fun hi => ?_, fun hi => exec_imgWr_of_le b hi⟩
  have hcell : i.toNat < s.engine.img.length := hlen ▸ hi
  exact ⟨_, exec_imgWr_of_lt b hi, Memory.read_write hwf hcell b⟩

/-- Settles O20: one clause for each row of the register map. The bits of STATUS are those of `Status.toWord`, and LEN
fits its register in a legal build. -/
theorem registerReadResult : Obligations.RegisterReadResult := by
  intro s
  have hCMD := exec_regRd_of_regAt (off := 0) s regAt_zero
  have hSTATUS := exec_regRd_of_regAt (off := 1) s regAt_one
  have hOLD := exec_regRd_of_regAt (off := 2) s regAt_two
  have hNEW := exec_regRd_of_regAt (off := 3) s regAt_three
  have hLEN := exec_regRd_of_regAt (off := 4) s regAt_four
  refine ⟨hCMD, ⟨s.engine.STATUS.toWord, hSTATUS, ?_⟩, hOLD, hNEW, ⟨_, hLEN, s.engine.toNat_regValue_LEN⟩,
    fun off hoff => exec_regRd_of_le s hoff⟩
  simp only [Status.getLsbD_toWord]
  simp +contextual

end Sys2Proof.Machine
end

section
/-! SUPPORT. The decoder of spec/30_encoding.md R54 and R56 as equations: what each command word decodes to, exactly which
descriptors decode and to what, and the step each outcome gives. -/

namespace Sys2Proof

/-! Command words (R54). -/

@[simp] theorem decodeCommand_zero : decodeCommand 0x0000#16 = .nop := rfl

@[simp] theorem decodeCommand_one : decodeCommand 0x0001#16 = .fix := rfl

theorem decodeCommand_of_ne {w : Word} (h0 : w ≠ 0x0000#16) (h1 : w ≠ 0x0001#16) : decodeCommand w = .reserved w := by
  rw [decodeCommand, if_neg h0, if_neg h1]

/-! Descriptors (R56). -/

theorem kind_cases (k : BitVec 2) : k = 0b00#2 ∨ k = 0b01#2 ∨ k = 0b10#2 ∨ k = 0b11#2 := by
  revert k; decide

/-- How each kind's case of the decoder accepts: its zero fields are zero, and then the transaction is the one read. -/
theorem ite_ok_error_eq_ok_iff {ε α : Type} (p : Prop) [Decidable p] (a i : α) (err : ε) :
    (if p then Except.ok a else Except.error err) = Except.ok i ↔ p ∧ i = a := by
  split
  case isTrue hp => simp [hp, eq_comm]
  case isFalse hp => simp [hp]

/-- R56, case by case: a descriptor decodes exactly when it has one of the four forms. -/
theorem decode_descriptor_eq_ok_iff (d : Descriptor) (i : Instr) :
    decode (.descriptor d) = .ok i ↔
      (d.kind = 0b00#2 ∧ (d.imageZero = 0 ∧ d.byte = 0) ∧ i = .imgRd d.index) ∨
      (d.kind = 0b01#2 ∧ d.imageZero = 0 ∧ i = .imgWr d.index d.byte) ∨
      (d.kind = 0b10#2 ∧ (d.registerZero = 0 ∧ d.value = 0) ∧ i = .regRd d.offset) ∨
      (d.kind = 0b11#2 ∧ d.registerZero = 0 ∧ i = .regWr d.offset d.value) := by
  obtain hk | hk | hk | hk := kind_cases d.kind <;> simp [decode, decodeDescriptor, hk, ite_ok_error_eq_ok_iff]

end Sys2Proof

namespace Sys2Proof.Machine

/-! The step on the host's next encoded form. -/

section
variable {s : State} {e : Encoded} {rest : List Encoded}

theorem step_of_decode_ok {i : Instr} (hc : s.config.legal = true) (hs : s.script = e :: rest)
    (hd : decode e = .ok i) : step s = exec i { s with script := rest } := by
  simp only [step, if_pos hc, State.fetch_cons s e rest hs, hd]

theorem step_of_decode_error {err : DecodeError} (hc : s.config.legal = true) (hs : s.script = e :: rest)
    (hd : decode e = .error err) : step s = .refused (.noTransaction err) := by
  simp only [step, if_pos hc, State.fetch_cons s e rest hs, hd]

end

/-! Transactions on an address that does not exist (spec/60_exceptions.md R86). -/

theorem exec_regWr_of_le {off : Offset} (s : State) (v : Word) (h : 5 ≤ off.toNat) :
    exec (.regWr off v) s = s.complete (s.engine.busError .regUnassigned) := by
  rw [exec_eq_complete, Engine.perform, Engine.registerWrite_of_le _ v h]

theorem exec_absentIndex {i : Instr} {n : Index} {s : State} (hn : s.config.LEN ≤ n.toNat)
    (hi : i = .imgRd n ∨ ∃ b, i = .imgWr n b) : exec i s = s.complete (s.engine.busError .imgRange) := by
  obtain rfl | ⟨b, rfl⟩ := hi
  · exact exec_imgRd_of_le hn
  · exact exec_imgWr_of_le b hn

theorem exec_absentOffset {i : Instr} {off : Offset} (s : State) (hoff : 5 ≤ off.toNat)
    (hi : i = .regRd off ∨ ∃ v, i = .regWr off v) : exec i s = s.complete (s.engine.busError .regUnassigned) := by
  obtain rfl | ⟨v, rfl⟩ := hi
  · exact exec_regRd_of_le s hoff
  · exact exec_regWr_of_le s v hoff

end Sys2Proof.Machine
end

section
/-! SUPPORT. The script reader of spec/30_encoding.md R60 to R62: when a line is accepted, and into which transactions. -/

namespace Sys2Proof

/-! The bounds of R62. -/

@[simp] theorem fitsIndex_iff (i : Nat) : fitsIndex i = true ↔ i ≤ 65535 := by
  rw [fitsIndex, decide_eq_true_iff]; omega

@[simp] theorem fitsByte_iff (b : Nat) : fitsByte b = true ↔ b ≤ 255 := by
  rw [fitsByte, decide_eq_true_iff]; omega

@[simp] theorem fitsOffset_iff (off : Nat) : fitsOffset off = true ↔ off ≤ 7 := by
  rw [fitsOffset, decide_eq_true_iff]; omega

@[simp] theorem fitsWord_iff (v : Nat) : fitsWord v = true ↔ v ≤ 65535 := by
  rw [fitsWord, decide_eq_true_iff]; omega

/-! The check of R62, line by line. -/

@[simp] theorem wellFormed_rdImg (i : Nat) : (ScriptLine.basic (.rdImg i)).wellFormed = true ↔ i ≤ 65535 :=
  fitsIndex_iff i

@[simp] theorem wellFormed_wrImg (i b : Nat) :
    (ScriptLine.basic (.wrImg i b)).wellFormed = true ↔ i ≤ 65535 ∧ b ≤ 255 := by
  simp [ScriptLine.wellFormed, BasicLine.wellFormed]

@[simp] theorem wellFormed_rdReg (off : Nat) : (ScriptLine.basic (.rdReg off)).wellFormed = true ↔ off ≤ 7 :=
  fitsOffset_iff off

@[simp] theorem wellFormed_wrReg (off v : Nat) :
    (ScriptLine.basic (.wrReg off v)).wellFormed = true ↔ off ≤ 7 ∧ v ≤ 65535 := by
  simp [ScriptLine.wellFormed, BasicLine.wellFormed]

@[simp] theorem wellFormed_ldImg (i : Nat) (bs : List Nat) :
    (ScriptLine.ldImg i bs).wellFormed = true ↔ bs ≠ [] ∧ i + bs.length ≤ 65536 ∧ ∀ b ∈ bs, b ≤ 255 := by
  simp [ScriptLine.wellFormed, and_assoc]

@[simp] theorem wellFormed_fill (lo hi b : Nat) :
    (ScriptLine.fill lo hi b).wellFormed = true ↔ lo ≤ 65535 ∧ hi ≤ 65535 ∧ b ≤ 255 := by
  simp [ScriptLine.wellFormed, and_assoc]

end Sys2Proof

namespace Sys2Proof.Machine

/-! Acceptance is the check of R62, and a refusal names its line. -/

theorem assembleLine_of_wellFormed {l : ScriptLine} (h : l.wellFormed = true) :
    assembleLine l = .ok ((expandLine l).map basicInstr) :=
  assembleLine_eq_ok.2 ⟨h, rfl⟩

theorem assembleLine_accepts_iff (l : ScriptLine) : (∃ is, assembleLine l = .ok is) ↔ l.wellFormed = true :=
  ⟨fun ⟨_, h⟩ => (assembleLine_eq_ok.1 h).1, fun h => ⟨_, assembleLine_of_wellFormed h⟩⟩

theorem assembleLine_eq_error {l : ScriptLine} {err : ScriptError} :
    assembleLine l = .error err ↔ ¬ l.wellFormed = true ∧ err = .doesNotFit l := by
  unfold assembleLine
  split <;> simp [*, eq_comm]

/-! The transactions of the two pseudo-instructions that expand to several (R61). -/

theorem getElem?_expand_ldImg (i : Nat) (bs : List Nat) (k : Nat) :
    ((expandLine (.ldImg i bs)).map basicInstr)[k]? =
      bs[k]?.map fun b => .imgWr (BitVec.ofNat 16 (i + k)) (BitVec.ofNat 8 b) := by
  simp [expandLine, List.getElem?_zipIdx, Function.comp_def, basicInstr]

theorem getElem?_expand_fill (lo hi b : Nat) {k : Nat} (hk : lo + k ≤ hi) :
    ((expandLine (.fill lo hi b)).map basicInstr)[k]? = some (.imgWr (BitVec.ofNat 16 (lo + k)) (BitVec.ofNat 8 b)) := by
  have hk' : k < hi + 1 - lo := by omega
  simp [expandLine, List.getElem?_range hk', basicInstr]

end Sys2Proof.Machine
end

section
/-! PROOFS. The obligations of spec/30_encoding.md. -/

namespace Sys2Proof.Machine

/-- Settles O14: by the three rows of R54's table. -/
theorem commandWordsDecode : Obligations.CommandWordsDecode := by
  intro w
  rw [two_le_toNat_iff]
  by_cases h0 : w = 0x0000#16
  · subst h0; simp
  by_cases h1 : w = 0x0001#16
  · subst h1; simp
  · simp [decodeCommand_of_ne h0 h1, h0, h1, eq_comm]

/-- Settles O13: the four forms of R56 with each field read as its number; the step refuses what does not decode and
performs what does, an absent index or offset included. -/
theorem descriptorDecodesFieldByField : Obligations.DescriptorDecodesFieldByField := by
  intro d
  refine ⟨fun i => ?_, fun i b => ?_, fun off => ?_, fun off v => ?_, ?_, ?_, fun s rest hc hs =>
    ⟨fun err hd => step_of_decode_error hc hs hd, fun i hd hi => ?_⟩⟩
  · simp [decode_descriptor_eq_ok_iff, ← BitVec.toNat_inj, toNat_kind, toNat_imageZero, toNat_byte, toNat_index,
      and_assoc]
  · simp [decode_descriptor_eq_ok_iff, ← BitVec.toNat_inj, toNat_kind, toNat_imageZero, toNat_byte, toNat_index]
  · simp [decode_descriptor_eq_ok_iff, ← BitVec.toNat_inj, toNat_kind, toNat_registerZero, toNat_value, toNat_offset,
      and_assoc]
  · simp [decode_descriptor_eq_ok_iff, ← BitVec.toNat_inj, toNat_kind, toNat_registerZero, toNat_value, toNat_offset]
  · simp [decode_descriptor_eq_ok_iff]
  · simp [decode_descriptor_eq_ok_iff]
  · rw [step_of_decode_ok hc hs hd]
    obtain ⟨n, hn, hi⟩ | ⟨off, hoff, hi⟩ := hi
    · exact ⟨_, _, exec_absentIndex hn hi, rfl⟩
    · exact ⟨_, _, exec_absentOffset _ hoff hi, rfl⟩

/-- Settles O50: a line is accepted exactly when the check of R62 holds of it, and a number that fits its field is the
operand that reaches the engine. -/
theorem scriptLineAcceptedExactlyWhenNumbersFit : Obligations.ScriptLineAcceptedExactlyWhenNumbersFit := by
  intro i b off v lo hi bs
  simp only [assembleLine_accepts_iff]
  refine ⟨wellFormed_rdImg i, wellFormed_wrImg i b, wellFormed_rdReg off, wellFormed_wrReg off v, by decide,
    fun hne hlast hbs => (wellFormed_ldImg i bs).2 ⟨hne, hlast, hbs⟩, fun h => ?_, wellFormed_fill lo hi b,
    fun l err h => (assembleLine_eq_error.1 h).2, fun s => ⟨fun hi hi' hb l hl => ?_, fun hoff hoff' hv l hl => ?_⟩⟩
  · refine ⟨_, assembleLine_eq_error.2 ⟨fun hwf => ?_, rfl⟩⟩
    obtain ⟨hne, hlast, hbs⟩ := (wellFormed_ldImg i bs).1 hwf
    obtain hi | ⟨x, hx, hbig⟩ := h
    · have := List.length_pos_iff.2 hne
      omega
    · exact absurd (hbs x hx) (by omega)
  · have hn : s.config.LEN ≤ (BitVec.ofNat 16 i).toNat := by
      rw [BitVec.toNat_ofNat]; omega
    obtain rfl | rfl := hl
    · exact ⟨_, _, assembleLine_of_wellFormed ((wellFormed_rdImg i).2 hi'), exec_imgRd_of_le hn, rfl⟩
    · exact ⟨_, _, assembleLine_of_wellFormed ((wellFormed_wrImg i b).2 ⟨hi', hb⟩), exec_imgWr_of_le _ hn, rfl⟩
  · have hn : 5 ≤ (BitVec.ofNat 3 off).toNat := by
      rw [BitVec.toNat_ofNat]; omega
    obtain rfl | rfl := hl
    · exact ⟨_, _, assembleLine_of_wellFormed ((wellFormed_rdReg off).2 hoff'), exec_regRd_of_le s hn, rfl⟩
    · exact ⟨_, _, assembleLine_of_wellFormed ((wellFormed_wrReg off v).2 ⟨hoff', hv⟩), exec_regWr_of_le s _ hn, rfl⟩

/-- Settles O52: the seven fixed lines evaluate to their descriptors; `ld.img` and `fill` are read off element by
element. -/
theorem pseudoInstructionsExpand : Obligations.PseudoInstructionsExpand := by
  refine ⟨rfl, rfl, rfl, rfl, rfl, rfl, rfl, fun i bs hne hbs hlast => ?_, fun lo hi b hlo hhi hb => ?_⟩
  · refine ⟨_, assembleLine_of_wellFormed ((wellFormed_ldImg i bs).2 ⟨hne, hlast, hbs⟩), by simp [expandLine],
      fun k b hk => ?_⟩
    rw [getElem?_expand_ldImg, hk, Option.map_some]
  · exact ⟨_, assembleLine_of_wellFormed ((wellFormed_fill lo hi b).2 ⟨hlo, hhi, hb⟩), by simp [expandLine],
      fun k hk => getElem?_expand_fill lo hi b hk⟩

end Sys2Proof.Machine
end

section
/-! SUPPORT. The datapath of spec/40_checksum.md read as numbers and as bits: a word is its two bytes (R37), a rotation
by 1 moves each bit up by one (R66); and what compute, the write-back and FIX do to an image (R67, R71, R77). -/

namespace Sys2Proof.Machine

/-! Words. -/

theorem Memory.wordAt_eq_append (m : Memory) (i : Nat) :
    Memory.wordAt m i = Memory.byteAt m (i + 1) ++ Memory.byteAt m i := by
  refine BitVec.eq_of_getLsbD_eq fun j hj => ?_
  rw [Memory.wordAt, BitVec.getLsbD_append]
  by_cases h : j < 8
  · simp [h, hj]
  · simp [h, hj, BitVec.getLsbD_of_ge _ j (Nat.not_lt.1 h)]

theorem Memory.toNat_wordAt (m : Memory) (i : Nat) :
    (Memory.wordAt m i).toNat = (Memory.byteAt m i).toNat + 256 * (Memory.byteAt m (i + 1)).toNat := by
  rw [Memory.wordAt_eq_append, toNat_append_eq]
  omega

/-! The rotation, bit by bit (spec/00_scope.md R9). -/

theorem getLsbD_zero_rotl16_one (v : Word) : (rotl16 v 1).getLsbD 0 = v.getLsbD 15 := by
  simp [rotl16]

theorem getLsbD_succ_rotl16_one (v : Word) {j : Nat} (hj : j < 15) : (rotl16 v 1).getLsbD (j + 1) = v.getLsbD j := by
  have hout : v.getLsbD (16 - 1 + (j + 1)) = false := BitVec.getLsbD_of_ge _ _ (by omega)
  rw [rotl16, BitVec.getLsbD_or, BitVec.getLsbD_shiftLeft, BitVec.getLsbD_ushiftRight, hout]
  simp [show j + 1 < 16 by omega]

/-! The fold (R67). -/

theorem accumulate_isSeededFold (m : Memory) (n : Nat) :
    ∃ acc : Nat → Word, acc 0 = 0xAAAA#16 ∧ (∀ k < n, acc (k + 1) = checksumStep (acc k) (payloadWord m k)) ∧
      accumulate m n = acc n :=
  ⟨accumulate m, rfl, fun k _ => accumulate_succ m k, rfl⟩

theorem compute_congr {c : Config} {m m' : Memory}
    (h : ∀ i, i + 2 < c.LEN → Memory.byteAt m' i = Memory.byteAt m i) : compute c m' = compute c m :=
  accumulate_congr _ fun k hk => by
    have := payload_index_lt hk
    exact payloadWord_congr k (h _ (by omega)) (h _ (by omega))

/-! The two checksum bytes (R71). -/

theorem LEN_sub_one_of_legal {c : Config} (hc : c.legal = true) : c.LEN - 1 = c.LEN - 2 + 1 := by
  obtain ⟨-, hge, -⟩ := (Config.legal_iff c).1 hc
  omega

theorem read_writeBack {c : Config} {m : Memory} (hc : c.legal = true) (h : Memory.wf m = true)
    (hl : m.length = c.LEN) (v : Word) (j : Nat) :
    Memory.read (writeBack c m v) j =
      if j = c.LEN - 2 then some (v.extractLsb' 0 8)
      else if j = c.LEN - 1 then some (v.extractLsb' 8 8)
      else Memory.read m j := by
  have hlast := LEN_sub_one_of_legal hc
  rw [hlast]
  exact Memory.read_writeWord h (by omega) v j

/-! FIX reads neither STATUS nor the checksum registers (R77). -/

theorem Engine.fix_congr (c : Config) {e e' : Engine} (h : e'.img = e.img) :
    (e'.fix c).1 = { (e.fix c).1 with STATUS := e'.STATUS.afterFix (e.fix c).1.STATUS.MATCH } := by
  simp only [Engine.fix, h, Status.afterFix_MATCH]

end Sys2Proof.Machine
end

section
/-! PROOFS. The obligations of spec/40_checksum.md. -/

namespace Sys2Proof.Machine

/-- Settles O32: both are words of the image, the stored checksum the one at LEN-2. -/
theorem wordsAreLittleEndian : Obligations.WordsAreLittleEndian := by
  refine ⟨fun m k => Memory.toNat_wordAt m (2 * k), fun c m hc => ?_⟩
  rw [LEN_sub_one_of_legal hc]
  exact Memory.toNat_wordAt m (c.LEN - 2)

/-- Settles O33: the step is the rotation of `w ^^^ acc`, of which each bit is known. -/
theorem checksumStepXorsThenRotates : Obligations.ChecksumStepXorsThenRotates :=
  fun acc w => ⟨getLsbD_zero_rotl16_one (w ^^^ acc), fun _ hj => getLsbD_succ_rotl16_one (w ^^^ acc) hj⟩

/-- Settles O34: the values are those of `accumulate`, whose words stand below LEN-2. -/
theorem checksumIsTheSeededFoldOverThePayload : Obligations.ChecksumIsTheSeededFoldOverThePayload :=
  fun c m => ⟨accumulate_isSeededFold m (NWORDS c), fun _ h => compute_congr h⟩

/-- Settles O36: the next image is the old one on a match and `writeBack` on a mismatch, of which `read_writeBack` says
every read. -/
theorem fixResult : Obligations.FixResult := by
  intro s ⟨hc, hwf, hlen⟩
  refine ⟨(s.engine.fix s.config).1.img, exec_of_runsFix s (i := .fix) rfl, fun heq => ?_, fun hne j => ?_⟩
  · rw [Engine.fix_img, if_pos heq]
  · rw [Engine.fix_img, if_neg hne]
    exact read_writeBack hc hwf hlen _ j

/-- Settles O38: two FIXes over one image differ in the sticky flags they keep, and CSUM_NEW is the fold. -/
theorem fixReadsTheImageAlone : Obligations.FixReadsTheImageAlone := by
  intro s s' t t' hconf himg h h'
  rw [engine_of_exec_runsFix h' rfl, engine_of_exec_runsFix h rfl, hconf, Engine.fix_congr s.config himg]
  exact ⟨rfl, rfl, rfl, rfl, rfl, accumulate_isSeededFold s.engine.img (NWORDS s.config)⟩

end Sys2Proof.Machine
end

section
/-! PROOFS. The obligations of spec/41_control.md. -/

namespace Sys2Proof.Machine

theorem exec_nop (s : State) : exec .nop s = s.complete (s.engine, .done) :=
  exec_eq_complete .nop s

/-- R82 as the spec words it: a set bit clears, a bit that is not set keeps. -/
theorem Status.clearSticky_eq_ite (f : Status) (v : Word) :
    f.clearSticky v = { f with
      ILLCMD := if v.getLsbD 8 then false else f.ILLCMD
      AERR := if v.getLsbD 9 then false else f.AERR } := by
  simp [Status.clearSticky, Bool.if_false_left, Bool.and_comm]

/-- Settles O22: both spellings complete with the engine as it was; the CMD write of 0 is the command word's run (R18). -/
theorem nopResult : Obligations.NopResult := by
  intro s
  obtain ⟨hcarried, -⟩ := commandWriteIssuesTheCommand s
  exact ⟨exec_nop s, hcarried.trans (exec_nop s)⟩

/-- Settles O23: a word of 2 or more is neither NOP nor FIX, so the CMD write runs the reserved command. -/
theorem reservedCommandResult : Obligations.ReservedCommandResult := by
  intro s v hv
  obtain ⟨h0, h1⟩ := (two_le_toNat_iff v).1 hv
  exact exec_reservedCommand s h0 h1

/-- Settles O25: the write is `clearSticky`, whose two bits are cleared where v has a 1. -/
theorem statusWriteResult : Obligations.StatusWriteResult := by
  intro s v
  rw [exec_statusWrite, Status.clearSticky_eq_ite, State.complete]

/-- Settles O26: the read-only offsets take the write, which leaves the engine as it is. -/
theorem readOnlyWriteResult : Obligations.ReadOnlyWriteResult :=
  fun s _ v h h' => exec_readOnlyWrite s v h h'

end Sys2Proof.Machine
end

section
/-! SUPPORT. The error events of spec/60_exceptions.md R86 and R87: which transactions answer which bus error, and what
the engine is after one. -/

namespace Sys2Proof.Machine

section
variable {c : Config} {e : Engine} {i : Instr} {k : BusErrorCode}

/-! The answer of each transaction: an access errs exactly when its address does not exist, and no command errs. -/

@[simp] theorem Engine.imageRead_response_eq_busError_iff {n : Index} :
    (e.imageRead c n).2 = .busError k ↔ c.LEN ≤ n.toNat ∧ k = .imgRange := by
  by_cases h : c.LEN ≤ n.toNat
  · simp [Engine.imageRead_of_le e h, h, eq_comm]
  · simp [Engine.imageRead_of_lt e (Nat.not_le.1 h), h]

@[simp] theorem Engine.imageWrite_response_eq_busError_iff {n : Index} {b : Byte} :
    (e.imageWrite c n b).2 = .busError k ↔ c.LEN ≤ n.toNat ∧ k = .imgRange := by
  by_cases h : c.LEN ≤ n.toNat
  · simp [Engine.imageWrite_of_le e b h, h, eq_comm]
  · simp [Engine.imageWrite_of_lt e b (Nat.not_le.1 h), h]

theorem exists_regAt_of_not_le {off : Offset} (h : ¬ 5 ≤ off.toNat) : ∃ r, regAt off = some r :=
  Option.ne_none_iff_exists'.1 fun hn => h ((regAt_eq_none_iff off).1 hn)

@[simp] theorem Engine.registerRead_response_eq_busError_iff {off : Offset} :
    (e.registerRead c off).2 = .busError k ↔ 5 ≤ off.toNat ∧ k = .regUnassigned := by
  by_cases h : 5 ≤ off.toNat
  · simp [Engine.registerRead_of_le e h, h, eq_comm]
  · obtain ⟨r, hr⟩ := exists_regAt_of_not_le h
    simp [Engine.registerRead, hr, h]

theorem Engine.runCommand_response (c : Config) (e : Engine) (v : Word) : (e.runCommand c v).2 = .done := by
  unfold Engine.runCommand
  split <;> rfl

/-- A write to a register that exists completes normally, a reserved command included (spec/60_exceptions.md R88). -/
theorem Engine.regSet_response (c : Config) (e : Engine) (v : Word) (r : RegName) : (e.regSet c v r).2 = .done := by
  cases r with
  | CMD => exact e.runCommand_response c v
  | STATUS | CSUM_OLD | CSUM_NEW | LEN => rfl

@[simp] theorem Engine.registerWrite_response_eq_busError_iff {off : Offset} {v : Word} :
    (e.registerWrite c off v).2 = .busError k ↔ 5 ≤ off.toNat ∧ k = .regUnassigned := by
  by_cases h : 5 ≤ off.toNat
  · simp [Engine.registerWrite_of_le e v h, h, eq_comm]
  · obtain ⟨r, hr⟩ := exists_regAt_of_not_le h
    simp [Engine.registerWrite, hr, Engine.regSet_response, h]

/-- The bus errors of R86's table, and no others: over all instructions. -/
theorem Engine.perform_response_eq_busError_iff :
    (e.perform c i).2 = .busError k ↔
      (∃ n, c.LEN ≤ n.toNat ∧ (i = .imgRd n ∨ ∃ b, i = .imgWr n b)) ∧ k = .imgRange ∨
      (∃ off, 5 ≤ off.toNat ∧ (i = .regRd off ∨ ∃ v, i = .regWr off v)) ∧ k = .regUnassigned := by
  cases i with
  | nop | fix => simp [Engine.perform]
  | imgRd n | imgWr n b => simp [Engine.perform]
  | regRd off | regWr off v => simp [Engine.perform]

/-- Of all that a transaction can do, only `BusError` answers a bus error. -/
theorem Engine.Effect.eq_busError {r : Engine × Response} (h : Engine.Effect c e i r) (hr : r.2 = .busError k) :
    r = e.busError k := by
  cases h with
  | unchanged _ r _ _ hne => exact absurd hr (hne k)
  | fix | imageWrite | reserved | statusWrite => cases hr
  | busError => cases hr; rfl

end

theorem response_of_exec {i : Instr} {s t : State} (h : exec i s = .next t) :
    t.response = some (s.engine.perform s.config i).2 := by
  rw [exec_eq_next] at h
  rw [← h]

end Sys2Proof.Machine
end

section
/-! PROOFS. The obligations of spec/60_exceptions.md. -/

namespace Sys2Proof.Machine

/-- Settles O28: the transaction's effect is the one that answers a bus error, `Engine.busError`, which sets AERR. -/
theorem busErrorChangesOnlyAerr : Obligations.BusErrorChangesOnlyAerr := by
  intro i s t code h hr
  have hb : s.engine.perform s.config i = s.engine.busError code :=
    (s.engine.perform_effect s.config i).eq_busError (Option.some_inj.1 ((response_of_exec h).symm.trans hr))
  rw [exec_eq_complete, hb, State.complete_eq_next] at h
  exact h.symm

/-- Settles O29: the two bus errors by the address each access names; AERR and ILLCMD by what their own statements (O44,
O43) say of the state after a transaction; the reserved command by its result (O23). -/
theorem errorEventsAreTheListedOnes : Obligations.ErrorEventsAreTheListedOnes := by
  intro i s t h
  obtain ⟨-, haerr⟩ := aerrIsStickyUntilCleared
  obtain ⟨-, hillcmd⟩ := illcmdIsStickyUntilCleared
  refine ⟨?_, ?_, fun hb => (haerr i s t h).2 (.inl hb), fun ht hs => ?_, ?_, fun ht hs => ?_⟩
  · rw [response_of_exec h, Option.some_inj, Engine.perform_response_eq_busError_iff]
    simp
  · rw [response_of_exec h, Option.some_inj, Engine.perform_response_eq_busError_iff]
    simp
  · exact ((haerr i s t h).1 ht).resolve_right fun ⟨hs', _⟩ => Bool.eq_false_iff.1 hs hs'
  · rintro v rfl hv
    rw [reservedCommandResult s v hv, Host.Outcome.next.injEq] at h
    subst h
    exact ⟨rfl, rfl⟩
  · exact ((hillcmd i s t h).1 ht).resolve_right fun ⟨hs', _⟩ => Bool.eq_false_iff.1 hs hs'

end Sys2Proof.Machine
end

section
/-! SUPPORT. What every transaction keeps of the image and of the invariant, read off the cases of Engine.Effect
(spec/10_state.md section 8), and FIX's image index by index (spec/40_checksum.md R71). -/

namespace Sys2Proof.Machine

/-! FIX's image: the computed checksum in the last two bytes, whether they held it before or not. -/

section
variable {c : Config} {e : Engine}

theorem stored_fix (hc : c.legal = true) (hwf : Memory.wf e.img = true) (hlen : e.img.length = c.LEN) :
    stored c (e.fix c).1.img = compute c e.img := by
  rw [Engine.fix_img]
  split
  case isTrue heq => exact heq.symm
  case isFalse => exact stored_writeBack hc hwf hlen _

theorem read_fix (hc : c.legal = true) (hwf : Memory.wf e.img = true) (hlen : e.img.length = c.LEN) (j : Nat) :
    Memory.read (e.fix c).1.img j =
      if j = c.LEN - 2 then some ((compute c e.img).extractLsb' 0 8)
      else if j = c.LEN - 1 then some ((compute c e.img).extractLsb' 8 8)
      else Memory.read e.img j := by
  rw [Engine.fix_img]
  split
  case isFalse => exact read_writeBack hc hwf hlen _ j
  case isTrue heq =>
    obtain ⟨-, hge, -⟩ := (Config.legal_iff c).1 hc
    have hlast := LEN_sub_one_of_legal hc
    split
    case isTrue hj => rw [heq, stored, Memory.wordAt, low_half_of_word, hj, Memory.read_eq_byteAt hwf (by omega)]
    case isFalse =>
      split
      case isTrue hj =>
        rw [heq, stored, Memory.wordAt, high_half_of_word, hj, hlast, Memory.read_eq_byteAt hwf (by omega)]
      case isFalse => rfl

/-- On a match FIX writes no byte of the image (spec/40_checksum.md R73). -/
theorem Engine.fix_of_match (h : compute c e.img = stored c e.img) :
    e.fix c = ({ e with STATUS := e.STATUS.afterFix true, CSUM_OLD := compute c e.img, CSUM_NEW := compute c e.img },
      .done) := by
  simp [Engine.fix, h]

end

/-! The cases of a transaction. -/

section
variable {c : Config} {e : Engine} {i : Instr} {r : Engine × Response}

theorem Engine.Effect.length_img (h : Engine.Effect c e i r) : r.1.img.length = e.img.length := by
  cases h with
  | unchanged | reserved | statusWrite | busError => rfl
  | fix => exact length_fix_img c e
  | imageWrite => exact Memory.length_write ..

theorem Engine.Effect.wf_img (h : Engine.Effect c e i r) (hwf : Memory.wf e.img = true) :
    Memory.wf r.1.img = true := by
  cases h with
  | unchanged | reserved | statusWrite | busError => exact hwf
  | fix => exact wf_fix_img c hwf
  | imageWrite => exact Memory.wf_write hwf ..

theorem Engine.Effect.keeps_img (h : Engine.Effect c e i r) (hf : runsFix i = false)
    (hw : ∀ n b, i = .imgWr n b → c.LEN ≤ n.toNat) : r.1.img = e.img := by
  cases h with
  | unchanged | reserved | statusWrite | busError => rfl
  | fix _ h => simp [h] at hf
  | imageWrite n b h => exact absurd h (Nat.not_lt.2 (hw n b rfl))

/-- An image write clears DONE, FIX makes the results current, and nothing else touches what they speak of. -/
theorem Engine.Effect.resultsCurrent (h : Engine.Effect c e i r) (hc : c.legal = true) (hwf : Memory.wf e.img = true)
    (hlen : e.img.length = c.LEN) (hres : e.ResultsCurrent c) : r.1.ResultsCurrent c := by
  cases h with
  | unchanged | reserved | statusWrite | busError => exact hres
  | fix =>
    intro _
    refine ⟨stored_fix hc hwf hlen, (compute_fix c e).symm, ?_⟩
    simp [eq_comm]
  | imageWrite => exact fun hdone => absurd hdone Bool.false_ne_true

theorem Engine.Effect.matchOnlyWhenDone (h : Engine.Effect c e i r) (hm : e.MatchOnlyWhenDone) :
    r.1.MatchOnlyWhenDone := by
  cases h with
  | unchanged | reserved | statusWrite | busError => exact hm
  | fix => exact fun _ => rfl
  | imageWrite => exact fun hmatch => absurd hmatch Bool.false_ne_true

end

theorem sound_of_exec {i : Instr} {s t : State} (h : exec i s = .next t) (hs : s.Sound) : t.Sound := by
  obtain ⟨hc, hwf, hlen⟩ := hs
  obtain ⟨hconf, -, r, he, -⟩ := exec_cases h
  exact ⟨hconf ▸ hc, he.wf_img hwf, he.length_img.trans (hlen.trans (congrArg Config.LEN hconf.symm))⟩

theorem inv_of_exec {i : Instr} {s t : State} (h : exec i s = .next t) (hs : s.Inv) : t.Inv := by
  obtain ⟨⟨hc, hwf, hlen⟩, hres, hmatch⟩ := hs
  obtain ⟨hconf, -, r, he, -⟩ := exec_cases h
  exact ⟨sound_of_exec h ⟨hc, hwf, hlen⟩, hconf ▸ he.resultsCurrent hc hwf hlen hres, he.matchOnlyWhenDone hmatch⟩

theorem State.Inv.legal {s : State} (hs : s.Inv) : s.config.legal = true := by
  obtain ⟨⟨hc, -⟩, -⟩ := hs
  exact hc

/-! The launch. -/

theorem State.inv_afterReset {c : Config} {image : List Byte} (hc : c.legal = true) (hlen : image.length = c.LEN) :
    (State.afterReset c (Memory.ofBytes image)).Inv :=
  ⟨⟨hc, Memory.wf_ofBytes image, (Memory.length_ofBytes image).trans hlen⟩,
    fun hdone => absurd hdone Bool.false_ne_true, fun hmatch => absurd hmatch Bool.false_ne_true⟩

theorem Config.legal_design : Config.design.legal = true := by decide

theorem Config.legal_eq_false_iff (c : Config) : c.legal = false ↔ c.LEN % 2 = 1 ∨ c.LEN < 4 ∨ 65534 < c.LEN := by
  rw [← Bool.not_eq_true, Config.legal_iff]
  omega

/-! The step. -/

theorem exec_completes (i : Instr) (s : State) : ∃ t, exec i s = .next t :=
  ⟨_, exec_eq_complete i s⟩

section
variable {s : State}

theorem step_of_illegal (h : s.config.legal = false) : step s = .refused (.illegalLength s.config.LEN) := by
  simp [step, h]

theorem step_of_script_nil (hc : s.config.legal = true) (hs : s.script = []) : step s = .next s := by
  simp [step, hc, State.fetch_nil s hs]

/-- A legal build is refused by no step: what the host issues next is nothing, a transaction, or no transaction. -/
theorem step_ne_illegalLength (hc : s.config.legal = true) (n : Nat) : step s ≠ .refused (.illegalLength n) := by
  intro h
  cases hs : s.script with
  | nil => simp [step_of_script_nil hc hs] at h
  | cons e rest =>
    cases hd : decode e with
    | ok i =>
      obtain ⟨t, ht⟩ := exec_completes i { s with script := rest }
      simp [step_of_decode_ok hc hs hd, ht] at h
    | error err => simp [step_of_decode_error hc hs hd] at h

/-- The next transaction of a script of transactions completes, with the rest of the script left to issue. -/
theorem step_of_scriptDecodes {e : Encoded} {rest : List Encoded} (hc : s.config.legal = true)
    (hdec : s.ScriptDecodes) (hs : s.script = e :: rest) :
    ∃ t, step s = .next t ∧ t.script = rest ∧ t.config = s.config ∧ t.ScriptDecodes := by
  obtain ⟨i, hi⟩ := hdec e (by simp [hs])
  obtain ⟨t, ht⟩ := exec_completes i { s with script := rest }
  obtain ⟨hconf, hscript, -⟩ := exec_cases ht
  refine ⟨t, (step_of_decode_ok hc hs hi).trans ht, hscript, hconf, fun e' he' => hdec e' ?_⟩
  rw [hscript] at he'
  exact hs ▸ List.mem_cons_of_mem e he'

end

theorem decodeTableWord_eq_some {nbits w : Nat} {i : Instr} (h : decodeTableWord nbits w = some i) :
    ∃ e, Encoded.ofTableWord nbits w = some e ∧ decode e = .ok i := by
  unfold decodeTableWord at h
  split at h
  case h_1 => cases h
  case h_2 e he =>
    split at h
    case h_1 j hj => exact ⟨e, he, Option.some_inj.1 h ▸ hj⟩
    case h_2 => cases h

theorem State.withFetchWord_of_some {nbits w : Nat} {e : Encoded} (s : State)
    (h : Encoded.ofTableWord nbits w = some e) : s.withFetchWord nbits w = s.issueNext e := by
  simp [State.withFetchWord, h]

end Sys2Proof.Machine
end

section
/-! PROOFS. The obligations about the launch and the step: the invariant, and what the host's script comes to. -/

namespace Sys2Proof.Machine

/-- Settles O5: an idle step is the state itself, and any other is a transaction, each of whose effects keeps the
invariant. -/
theorem stepKeepsInvariant : Obligations.StepKeepsInvariant := by
  intro s t hs h
  obtain ⟨-, ⟨-, rfl⟩ | ⟨e, rest, i, -, -, hx⟩⟩ := step_cases h
  · exact hs
  · exact inv_of_exec hx hs

/-- Settles O10, by induction on the script: the next transaction completes, and the rest runs from a state that meets
the invariant again. -/
theorem wholeScriptRunsToItsEnd : Obligations.WholeScriptRunsToItsEnd := by
  intro s hs hdec
  generalize hscript : s.script = script
  induction script generalizing s with
  | nil => exact ⟨s, rfl, hscript, hs, rfl⟩
  | cons e rest ih =>
    obtain ⟨t, hstep, hrest, hconf, hdec'⟩ := step_of_scriptDecodes hs.legal hdec hscript
    obtain ⟨u, hrun, hnil, hinv, hconf'⟩ := ih t (stepKeepsInvariant s t hs hstep) hdec' hrest
    exact ⟨u, (run_succ_of_step_next hstep rest.length).trans hrun, hnil, hinv, hconf'.trans hconf⟩

/-- Settles O2: an illegal LEN fails the check that launch and step make first; a legal one passes it. -/
theorem illegalBuildIsRefused : Obligations.IllegalBuildIsRefused := by
  intro c
  refine ⟨fun hill => ?_, fun heven hge hle => ?_⟩
  · have hc : c.legal = false := (Config.legal_eq_false_iff c).2 hill
    refine ⟨fun image => by simp [launch, hc], ?_⟩
    rintro s rfl
    exact step_of_illegal hc
  · have hc : c.legal = true := (Config.legal_iff c).2 ⟨heven, hge, hle⟩
    refine ⟨fun image hlen => by simp [launch, hc, hlen], fun image hlen => ⟨_, launch_eq_ok.2 ⟨hc, hlen, rfl⟩⟩, ?_⟩
    rintro s n rfl
    exact step_ne_illegalLength hc n

/-- Settles O3: the image is built from the free bytes of the indices below 256. -/
theorem resetIsTheDesignWithUnspecifiedImage : Obligations.ResetIsTheDesignWithUnspecifiedImage := by
  have hread (i : Nat) : Memory.read State.reset.engine.img i = ((List.range 256).map Config.freeByte)[i]? :=
    Memory.read_ofBytes _ i
  refine ⟨rfl, fun i hi => ?_, fun i hi => ?_, rfl, rfl, rfl, rfl, rfl⟩
  · rw [hread, List.getElem?_map, List.getElem?_range hi, Option.map_some]
  · rw [hread, List.getElem?_eq_none (by simpa using hi)]

/-- Settles O4: the reset and every launch are a reset engine over LEN bytes. -/
theorem launchMeetsInvariant : Obligations.LaunchMeetsInvariant := by
  refine ⟨State.inv_afterReset Config.legal_design (by simp), fun c image s h => ?_⟩
  obtain ⟨hc, hlen, rfl⟩ := launch_eq_ok.1 h
  exact State.inv_afterReset hc hlen

/-- Settles O6: the legal build passes the check and the script's first form is fetched. -/
theorem stepRunsDecodedTransaction : Obligations.StepRunsDecodedTransaction :=
  fun _ _ _ _ hc hs hd => step_of_decode_ok hc hs hd

/-- Settles O7: the word is an encoded form, which stands first in the script and is taken off it again. -/
theorem tableWordRunsNext : Obligations.TableWordRunsNext := by
  intro s nbits w i hc h
  obtain ⟨e, he, hd⟩ := decodeTableWord_eq_some h
  rw [State.withFetchWord_of_some s he]
  exact step_of_decode_ok (s := s.issueNext e) hc rfl hd

/-- Settles O8: the fetched descriptor is refused under the decoder's reason. -/
theorem stepRefusesWhatSpellsNoTransaction : Obligations.StepRefusesWhatSpellsNoTransaction :=
  fun _ _ _ _ hc hs hd => step_of_decode_error hc hs hd

/-- Settles O9: there is nothing to fetch. -/
theorem idleEngineHoldsState : Obligations.IdleEngineHoldsState :=
  fun _ hc hs => step_of_script_nil hc hs

/-- Settles O30: exec completes the transaction with what the engine does for it. -/
theorem everyTransactionCompletes : Obligations.EveryTransactionCompletes :=
  exec_completes

end Sys2Proof.Machine
end

section
/-! SUPPORT. Encoder against decoder: the fields of an encoded descriptor, the descriptor its fields make up
(spec/30_encoding.md R53), and a field that a row of the opcode table fixes (section 5). -/

namespace Sys2Proof

theorem fields_image (z : BitVec 2) (i : Index) (b : Byte) :
    Descriptor.kind (z ++ 0#6 ++ i ++ b) = z ∧ Descriptor.imageZero (z ++ 0#6 ++ i ++ b) = 0 ∧
      Descriptor.index (z ++ 0#6 ++ i ++ b) = i ∧ Descriptor.byte (z ++ 0#6 ++ i ++ b) = b := by
  have hd : BitVec.toNat (w := 32) (z ++ 0#6 ++ i ++ b) = _ := toNat_image z i b
  simp only [← BitVec.toNat_inj, toNat_kind, toNat_imageZero, toNat_index, toNat_byte, hd, BitVec.ofNat_eq_ofNat,
    BitVec.toNat_ofNat]
  omega

theorem fields_register (z : BitVec 2) (off : Offset) (v : Word) :
    Descriptor.kind (z ++ 0#11 ++ off ++ v) = z ∧ Descriptor.registerZero (z ++ 0#11 ++ off ++ v) = 0 ∧
      Descriptor.offset (z ++ 0#11 ++ off ++ v) = off ∧ Descriptor.value (z ++ 0#11 ++ off ++ v) = v := by
  have hd : BitVec.toNat (w := 32) (z ++ 0#11 ++ off ++ v) = _ := toNat_register z off v
  simp only [← BitVec.toNat_inj, toNat_kind, toNat_registerZero, toNat_offset, toNat_value, hd, BitVec.ofNat_eq_ofNat,
    BitVec.toNat_ofNat]
  omega

/-- An image descriptor is its kind, six zeros, its index and its byte. -/
theorem image_of_fields {d : Descriptor} {z : BitVec 2} {b : Byte} (hk : d.kind = z) (hz : d.imageZero = 0)
    (hb : d.byte = b) : z ++ 0#6 ++ d.index ++ b = d := by
  subst hk hb
  refine BitVec.eq_of_toNat_eq ((toNat_image d.kind d.index d.byte).trans ?_)
  have hz' : d.imageZero.toNat = 0 := congrArg BitVec.toNat hz
  rw [toNat_imageZero] at hz'
  rw [toNat_kind, toNat_index, toNat_byte]
  omega

/-- A register descriptor is its kind, eleven zeros, its offset and its value. -/
theorem register_of_fields {d : Descriptor} {z : BitVec 2} {v : Word} (hk : d.kind = z) (hz : d.registerZero = 0)
    (hv : d.value = v) : z ++ 0#11 ++ d.offset ++ v = d := by
  subst hk hv
  refine BitVec.eq_of_toNat_eq ((toNat_register d.kind d.offset d.value).trans ?_)
  have hz' : d.registerZero.toNat = 0 := congrArg BitVec.toNat hz
  rw [toNat_registerZero] at hz'
  rw [toNat_kind, toNat_offset, toNat_value]
  omega

/-! The rows of the opcode table (spec/30_encoding.md section 5). -/

/-- A field that the mask covers is that of the match. -/
theorem extractLsb'_of_and_eq {x mask value : BitVec 32} {start len : Nat} (h : x &&& mask = value)
    (hmask : mask.extractLsb' start len = BitVec.allOnes len) :
    x.extractLsb' start len = value.extractLsb' start len := by
  rw [← h, BitVec.extractLsb'_and, hmask, BitVec.and_allOnes]

theorem fits_iff {r : OpcodeRow} {e : Encoded} : r.fits e = true ↔ e.nbits = r.nbits ∧ e.bits &&& r.mask = r.value := by
  simp [OpcodeRow.fits]

theorem extractLsb'_setWidth_word (w : Word) : (w.setWidth 32).extractLsb' 0 16 = w :=
  BitVec.eq_of_toNat_eq (by simp; omega)

theorem fits_command_row {value : BitVec 32} {e : Encoded} (h : (OpcodeRow.mk 16 value 0xFFFF#32).fits e = true) :
    e = .command (value.extractLsb' 0 16) := by
  obtain ⟨hn, hb⟩ := fits_iff.1 h
  cases e with
  | descriptor d => simp [Encoded.nbits] at hn
  | command w =>
    have hw : (w.setWidth 32).extractLsb' 0 16 = value.extractLsb' 0 16 :=
      extractLsb'_of_and_eq (mask := 0xFFFF#32) hb (by decide)
    rw [← hw, extractLsb'_setWidth_word]

theorem fits_descriptor_row {value mask : BitVec 32} {e : Encoded} (h : (OpcodeRow.mk 32 value mask).fits e = true) :
    ∃ d, e = .descriptor d ∧ d &&& mask = value := by
  obtain ⟨hn, hb⟩ := fits_iff.1 h
  cases e with
  | command w => simp [Encoded.nbits] at hn
  | descriptor d => exact ⟨d, rfl, hb⟩

end Sys2Proof
end

section
/-! PROOFS. The obligations about encoder, decoder and opcode table. -/

namespace Sys2Proof.Machine

/-- Settles O11: command words by evaluation, descriptors by their fields. -/
theorem decodeOfEncodeIsTheInstruction : Obligations.DecodeOfEncodeIsTheInstruction := by
  intro i
  cases i with
  | nop | fix => rfl
  | imgRd n =>
    obtain ⟨hk, hz, hn, hb⟩ := fields_image 0b00#2 n 0#8
    exact (decode_descriptor_eq_ok_iff _ _).2 (.inl ⟨hk, ⟨hz, hb⟩, by rw [hn]⟩)
  | imgWr n b =>
    obtain ⟨hk, hz, hn, hb⟩ := fields_image 0b01#2 n b
    exact (decode_descriptor_eq_ok_iff _ _).2 (.inr (.inl ⟨hk, hz, by rw [hn, hb]⟩))
  | regRd off =>
    obtain ⟨hk, hz, hoff, hv⟩ := fields_register 0b10#2 off 0#16
    exact (decode_descriptor_eq_ok_iff _ _).2 (.inr (.inr (.inl ⟨hk, ⟨hz, hv⟩, by rw [hoff]⟩)))
  | regWr off v =>
    obtain ⟨hk, hz, hoff, hv⟩ := fields_register 0b11#2 off v
    exact (decode_descriptor_eq_ok_iff _ _).2 (.inr (.inr (.inr ⟨hk, hz, by rw [hoff, hv]⟩)))

/-- Settles O12: the descriptor has one of R56's four forms, and is what its fields make up. -/
theorem encodeOfDecodeIsTheDescriptor : Obligations.EncodeOfDecodeIsTheDescriptor := by
  intro d i h
  obtain ⟨hk, ⟨hz, hb⟩, rfl⟩ | ⟨hk, hz, rfl⟩ | ⟨hk, ⟨hz, hv⟩, rfl⟩ | ⟨hk, hz, rfl⟩ :=
    (decode_descriptor_eq_ok_iff d i).1 h
  · exact congrArg Encoded.descriptor (image_of_fields hk hz hb)
  · exact congrArg Encoded.descriptor (image_of_fields hk hz rfl)
  · exact congrArg Encoded.descriptor (register_of_fields hk hz hv)
  · exact congrArg Encoded.descriptor (register_of_fields hk hz rfl)

/-- Settles O15: the mask of a row covers the kind and the zero fields, all that the decoder tests. -/
theorem tableRowsDecodeToTheirInstruction : Obligations.TableRowsDecodeToTheirInstruction := by
  intro i e h
  cases i with
  | nop => exact ⟨.nop, congrArg decode (fits_command_row h), rfl⟩
  | fix => exact ⟨.fix, congrArg decode (fits_command_row h), rfl⟩
  | imgRd =>
    obtain ⟨d, rfl, hd⟩ := fits_descriptor_row h
    have hk : d.kind = 0b00#2 := extractLsb'_of_and_eq hd (by decide)
    have hz : d.imageZero = 0 := extractLsb'_of_and_eq hd (by decide)
    have hb : d.byte = 0 := extractLsb'_of_and_eq hd (by decide)
    exact ⟨_, (decode_descriptor_eq_ok_iff d _).2 (.inl ⟨hk, ⟨hz, hb⟩, rfl⟩), rfl⟩
  | imgWr =>
    obtain ⟨d, rfl, hd⟩ := fits_descriptor_row h
    have hk : d.kind = 0b01#2 := extractLsb'_of_and_eq hd (by decide)
    have hz : d.imageZero = 0 := extractLsb'_of_and_eq hd (by decide)
    exact ⟨_, (decode_descriptor_eq_ok_iff d _).2 (.inr (.inl ⟨hk, hz, rfl⟩)), rfl⟩
  | regRd =>
    obtain ⟨d, rfl, hd⟩ := fits_descriptor_row h
    have hk : d.kind = 0b10#2 := extractLsb'_of_and_eq hd (by decide)
    have hz : d.registerZero = 0 := extractLsb'_of_and_eq hd (by decide)
    have hv : d.value = 0 := extractLsb'_of_and_eq hd (by decide)
    exact ⟨_, (decode_descriptor_eq_ok_iff d _).2 (.inr (.inr (.inl ⟨hk, ⟨hz, hv⟩, rfl⟩))), rfl⟩
  | regWr =>
    obtain ⟨d, rfl, hd⟩ := fits_descriptor_row h
    have hk : d.kind = 0b11#2 := extractLsb'_of_and_eq hd (by decide)
    have hz : d.registerZero = 0 := extractLsb'_of_and_eq hd (by decide)
    exact ⟨_, (decode_descriptor_eq_ok_iff d _).2 (.inr (.inr (.inr ⟨hk, hz, rfl⟩))), rfl⟩

/-- Settles O16: by the decoder's evaluation on each word. -/
theorem writtenOutWordsDecode : Obligations.WrittenOutWordsDecode := by
  refine ⟨rfl, rfl, by decide, by decide, by decide, by decide, by decide, by decide, ?_⟩
  simp only [List.forall_mem_cons, List.not_mem_nil, false_imp_iff, implies_true, and_true]
  exact ⟨⟨_, rfl⟩, ⟨_, rfl⟩, ⟨_, rfl⟩, ⟨_, rfl⟩, ⟨_, rfl⟩, ⟨_, rfl⟩⟩

/-- Settles O56: a word of 2 or more is no row of R54's table. -/
theorem reservedCommandWordIsItsRegisterWrite : Obligations.ReservedCommandWordIsItsRegisterWrite := by
  intro w hw
  obtain ⟨h0, h1⟩ := (two_le_toNat_iff w).1 hw
  rw [decode, decodeCommand_of_ne h0 h1]

end Sys2Proof.Machine
end

section
/-! SUPPORT. What a transaction reads of the engine: never STATUS (spec/10_state.md section 6), and of a read's engine
nothing changes (spec/20_memory.md section 4); the rotation repeated, and the fold over a payload of zeros
(spec/40_checksum.md section 2, R79). -/

namespace Sys2Proof.Machine

/-! Engines that differ in STATUS only. -/

/-- The engines agree on the image and on both checksum registers. -/
def Engine.AgreeButStatus (e e' : Engine) : Prop :=
  e'.img = e.img ∧ e'.CSUM_OLD = e.CSUM_OLD ∧ e'.CSUM_NEW = e.CSUM_NEW

theorem Engine.agreeButStatus_of_STATUS (e : Engine) (f : Status) : e.AgreeButStatus { e with STATUS := f } :=
  ⟨rfl, rfl, rfl⟩

section
variable (c : Config) (e : Engine) (f : Status)

theorem Engine.agreeButStatus_runCommand (v : Word) :
    (e.runCommand c v).1.AgreeButStatus ({ e with STATUS := f }.runCommand c v).1 := by
  unfold Engine.runCommand
  cases decodeCommand v with
  | nop | fix | reserved => exact Engine.agreeButStatus_of_STATUS _ _

theorem Engine.agreeButStatus_regSet (v : Word) (r : RegName) :
    (e.regSet c v r).1.AgreeButStatus ({ e with STATUS := f }.regSet c v r).1 := by
  cases r with
  | CMD => exact e.agreeButStatus_runCommand c f v
  | STATUS | CSUM_OLD | CSUM_NEW | LEN => exact e.agreeButStatus_of_STATUS _

theorem regAt_eq_STATUS {off : Offset} (h : regAt off = some .STATUS) : off = 1 := by
  revert off; decide

theorem Engine.agreeButStatus_perform (i : Instr) :
    (e.perform c i).1.AgreeButStatus ({ e with STATUS := f }.perform c i).1 := by
  cases i with
  | nop | fix => exact Engine.agreeButStatus_of_STATUS _ _
  | imgRd n =>
    simp only [Engine.perform, Engine.imageRead]
    split <;> exact e.agreeButStatus_of_STATUS _
  | imgWr n b =>
    simp only [Engine.perform, Engine.imageWrite]
    split <;> exact Engine.agreeButStatus_of_STATUS _ _
  | regRd off =>
    simp only [Engine.perform, Engine.registerRead]
    split <;> exact e.agreeButStatus_of_STATUS _
  | regWr off v =>
    simp only [Engine.perform, Engine.registerWrite]
    split
    · exact e.agreeButStatus_regSet c f v _
    · exact e.agreeButStatus_of_STATUS _

/-- Of all transactions the read of STATUS alone responds with it. -/
theorem Engine.response_perform_STATUS {i : Instr} (hi : i ≠ .regRd 1) :
    ({ e with STATUS := f }.perform c i).2 = (e.perform c i).2 := by
  cases i with
  | nop | fix => rfl
  | imgRd n =>
    simp only [Engine.perform, Engine.imageRead]
    split <;> rfl
  | imgWr n b =>
    simp only [Engine.perform, Engine.imageWrite]
    split <;> rfl
  | regRd off =>
    simp only [Engine.perform, Engine.registerRead]
    split
    case h_2 => rfl
    case h_1 r hr =>
      cases r with
      | STATUS => exact absurd (congrArg Instr.regRd (regAt_eq_STATUS hr)) hi
      | CMD | CSUM_OLD | CSUM_NEW | LEN => rfl
  | regWr off v =>
    simp only [Engine.perform, Engine.registerWrite]
    split
    · rw [Engine.regSet_response, Engine.regSet_response]
    · rfl

end

/-! Where a byte of the image may change. -/

theorem Engine.Effect.read_img_ne {c : Config} {e : Engine} {i : Instr} {r : Engine × Response}
    (h : Engine.Effect c e i r) (hc : c.legal = true) (hwf : Memory.wf e.img = true) (hlen : e.img.length = c.LEN)
    {j : Nat} (hne : Memory.read r.1.img j ≠ Memory.read e.img j) :
    (∃ n b, i = .imgWr n b ∧ n.toNat < c.LEN ∧ j = n.toNat) ∨
      (runsFix i = true ∧ (j = c.LEN - 2 ∨ j = c.LEN - 1) ∧ compute c e.img ≠ stored c e.img) := by
  cases h with
  | unchanged | reserved | statusWrite | busError => exact absurd rfl hne
  | imageWrite n b hn => exact .inl ⟨n, b, rfl, hn, by_contra fun hj => hne (Memory.read_write_of_ne _ b hj)⟩
  | fix _ hf =>
    refine .inr ⟨hf, by_contra fun hj => hne ?_, fun heq => hne (by rw [Engine.fix_of_match heq])⟩
    obtain ⟨hlow, hhigh⟩ := not_or.1 hj
    rw [read_fix hc hwf hlen, if_neg hlow, if_neg hhigh]

/-! Reads of an address that exists. -/

/-- `i` is a read of an index or a register that exists. -/
def Instr.ReadsExisting (c : Config) (i : Instr) : Prop :=
  (∃ n, i = .imgRd n ∧ n.toNat < c.LEN) ∨ (∃ off, i = .regRd off ∧ off.toNat ≤ 4)

theorem Engine.perform_of_readsExisting {c : Config} {i : Instr} (e : Engine) (h : Instr.ReadsExisting c i) :
    (e.perform c i).1 = e := by
  obtain ⟨n, rfl, hn⟩ | ⟨off, rfl, hoff⟩ := h
  · rw [Engine.perform, Engine.imageRead_of_lt e hn]
  · obtain ⟨r, hr⟩ := exists_regAt_of_not_le (off := off) (by omega)
    rw [Engine.perform, Engine.registerRead, hr]

theorem exec_of_readsExisting {i : Instr} {s t : State} (h : Instr.ReadsExisting s.config i)
    (hx : exec i s = .next t) : t.engine = s.engine ∧ t.config = s.config := by
  rw [exec_eq_next, Engine.perform_of_readsExisting _ h] at hx
  subst hx
  exact ⟨rfl, rfl⟩

/-! The rotation by 1 moves every bit up by one, around the word's end. -/

theorem getLsbD_rotl16_one (v : Word) {j : Nat} (hj : j < 16) : (rotl16 v 1).getLsbD ((j + 1) % 16) = v.getLsbD j := by
  by_cases h : j = 15
  · subst h; exact getLsbD_zero_rotl16_one v
  · rw [Nat.mod_eq_of_lt (by omega)]
    exact getLsbD_succ_rotl16_one v (by omega)

theorem getLsbD_repeat_rotl16_one (v : Word) (n : Nat) {j : Nat} (hj : j < 16) :
    (Nat.repeat (fun x => rotl16 x 1) n v).getLsbD ((j + n) % 16) = v.getLsbD j := by
  induction n with
  | zero => rw [Nat.add_zero, Nat.mod_eq_of_lt hj]; rfl
  | succ n ih =>
    have hmod : (j + (n + 1)) % 16 = ((j + n) % 16 + 1) % 16 := by omega
    rw [hmod, Nat.repeat, getLsbD_rotl16_one _ (Nat.mod_lt _ (by decide)), ih]

theorem rotl16_one_injective {v v' : Word} (h : rotl16 v 1 = rotl16 v' 1) : v = v' :=
  BitVec.eq_of_getLsbD_eq fun j hj => by rw [← getLsbD_rotl16_one v hj, h, getLsbD_rotl16_one v' hj]

/-! Words of zero bytes. -/

theorem Memory.byteAt_of_read {m : Memory} {i : Nat} {b : Byte} (h : Memory.read m i = some b) :
    Memory.byteAt m i = b := by
  rw [Memory.byteAt, h, Option.getD_some]

theorem Memory.byteAt_congr {m m' : Memory} {i : Nat} (h : Memory.read m' i = Memory.read m i) :
    Memory.byteAt m' i = Memory.byteAt m i := by
  rw [Memory.byteAt, h, Memory.byteAt]

theorem Memory.wordAt_of_zeros {m : Memory} {i : Nat} (h : Memory.read m i = some 0x00#8)
    (h' : Memory.read m (i + 1) = some 0x00#8) : Memory.wordAt m i = 0x0000#16 := by
  rw [Memory.wordAt, Memory.byteAt_of_read h, Memory.byteAt_of_read h']
  rfl

/-- Over words of zero the accumulator alternates between the seed and its rotation. -/
theorem accumulate_of_zeros {m : Memory} {n : Nat} (h : ∀ k < n, payloadWord m k = 0x0000#16) :
    accumulate m n = if n % 2 = 0 then 0xAAAA#16 else 0x5555#16 := by
  induction n with
  | zero => rfl
  | succ n ih =>
    rw [accumulate_succ, h n (by omega), ih fun k hk => h k (by omega)]
    by_cases hn : n % 2 = 0
    · rw [if_pos hn, if_neg (by omega)]; decide
    · rw [if_neg hn, if_pos (by omega)]; decide

end Sys2Proof.Machine
end

section
/-! PROOFS. The obligations about what a transaction changes, what it reads, and the image after FIX. -/

namespace Sys2Proof.Machine

/-- Settles O19: the byte stands in the image, where the read finds it. -/
theorem writtenByteReadsBack : Obligations.WrittenByteReadsBack := by
  intro s i b ⟨_, hwf, hlen⟩ hi
  have hread := Memory.byteAt_write_self hwf (hlen ▸ hi) b
  exact ⟨_, _, exec_imgWr_of_lt b hi, exec_imgRd_of_lt hi, congrArg (some ∘ Response.byte) hread, rfl⟩

/-- Settles O27: such an offset is no register. -/
theorem unassignedRegisterWriteResult : Obligations.UnassignedRegisterWriteResult :=
  fun s _ v h => exec_regWr_of_le s v h

/-- Settles O31: the two runs are those of one engine under two STATUS words. -/
theorem flagsDecideNothing : Obligations.FlagsDecideNothing := by
  intro i s t s' t' hconf heng h h'
  rw [exec_eq_next] at h h'
  subst h h'
  rw [hconf, heng]
  obtain ⟨himg, hold, hnew⟩ := s.engine.agreeButStatus_perform s.config s'.engine.STATUS i
  exact ⟨himg, hold, hnew, fun hi => congrArg some (s.engine.response_perform_STATUS s.config s'.engine.STATUS hi)⟩

/-- Settles O35: after sixteen rotations every bit is back in its place; one rotation loses no bit, and XOR is one to
one. -/
theorem rotationAndStepAreOneToOne : Obligations.RotationAndStepAreOneToOne := by
  refine ⟨fun v => BitVec.eq_of_getLsbD_eq fun j hj => ?_, fun acc acc' w h => ?_, fun acc w w' h => ?_⟩
  · have hbit := getLsbD_repeat_rotl16_one v 16 hj
    rwa [Nat.add_mod_right, Nat.mod_eq_of_lt hj] at hbit
  · exact (BitVec.xor_right_inj w).1 (rotl16_one_injective h)
  · exact (BitVec.xor_left_inj acc).1 (rotl16_one_injective h)

/-- Settles O37: after FIX the stored checksum is the computed one, which FIX does not change; so a second FIX finds a
match. -/
theorem fixMakesTheImageAFixedPoint : Obligations.FixMakesTheImageAFixedPoint := by
  intro s t ⟨hc, hwf, hlen⟩ h
  rw [exec_of_runsFix s (i := .fix) rfl, State.complete_eq_next] at h
  subst h
  have hcompute := compute_fix s.config s.engine
  have hstored : stored s.config (s.engine.fix s.config).1.img = _ := stored_fix hc hwf hlen
  refine ⟨hstored.trans hcompute.symm, hcompute, hcompute.symm, fun j hj hj' => ?_, ?_⟩
  · exact (read_fix hc hwf hlen j).trans (by rw [if_neg hj, if_neg hj'])
  · rw [exec_of_runsFix _ (i := .fix) rfl, State.complete_eq_next]
    simp only [Engine.fix_of_match (hcompute.trans hstored.symm), hcompute]
    rfl

/-- Settles O39: both images read alike below LEN-2, hence have one computed checksum, which stands in the last two
bytes. -/
theorem payloadDecidesTheRepairedImage : Obligations.PayloadDecidesTheRepairedImage := by
  intro s s' t t' ⟨hc, hwf, hlen⟩ ⟨_, hwf', hlen'⟩ hconf hpay h h'
  rw [hconf] at hlen'
  have hcompute : compute s.config s'.engine.img = compute s.config s.engine.img :=
    compute_congr fun i hi => Memory.byteAt_congr (hpay i hi)
  rw [engine_of_exec_runsFix h' rfl, engine_of_exec_runsFix h rfl, hconf]
  refine ⟨Memory.ext_of_wf (wf_fix_img _ hwf') (wf_fix_img _ hwf) (by simp [hlen, hlen']) fun j hj => ?_, hcompute⟩
  rw [length_fix_img, hlen'] at hj
  rw [read_fix hc hwf' hlen', read_fix hc hwf hlen, hcompute]
  split
  case isTrue => rfl
  case isFalse hlow =>
    split
    case isTrue => rfl
    case isFalse hhigh => exact hpay j (by omega)

/-- Settles O40: 127 words of zero turn the seed into 0x5555, and the stored checksum is zero, so FIX finds a
mismatch. -/
theorem allZeroImageGetsChecksum5555 : Obligations.AllZeroImageGetsChecksum5555 := by
  intro s ⟨hc, hwf, hlen⟩ hLEN hzero hill haerr
  have hcompute : compute s.config s.engine.img = 0x5555#16 := by
    rw [compute, NWORDS, hLEN]
    exact accumulate_of_zeros fun k hk => Memory.wordAt_of_zeros (hzero _ (by omega)) (hzero _ (by omega))
  have hstored : stored s.config s.engine.img = 0x0000#16 := by
    rw [stored, hLEN]
    exact Memory.wordAt_of_zeros (hzero _ (by decide)) (hzero _ (by decide))
  have hread := read_fix hc hwf hlen
  rw [hcompute, hLEN] at hread
  refine ⟨hcompute.trans (by decide), hcompute, _, exec_of_runsFix s (i := .fix) rfl, hread 254, hread 255, hstored,
    hcompute, (exec_regRd_of_regAt (off := 1) _ regAt_one).trans ?_⟩
  simp [Engine.regValue, State.complete, Status.afterFix, hcompute, hstored, hill, haerr, Status.toWord]

/-- Settles O47: no transaction changes the image's shape, and `Engine.Effect.read_img_ne` says where a byte may
change. -/
theorem imageBytesChangeOnlyWhereWritten : Obligations.ImageBytesChangeOnlyWhereWritten := by
  intro i s t hs h j
  obtain ⟨hconf, -, r, he, -⟩ := exec_cases h
  obtain ⟨-, hwf', hlen'⟩ := sound_of_exec h hs
  obtain ⟨hc, hwf, hlen⟩ := hs
  refine ⟨by rw [Memory.isSome_read hwf', hlen', hconf], fun hne => ?_⟩
  rw [← runsFix_iff]
  exact he.read_img_ne hc hwf hlen hne

/-- Settles O48: none of these runs FIX and none is an image write, and the rest keep the image, the checksum registers,
DONE and MATCH. -/
theorem transactionsThatStoreNothingFrame : Obligations.TransactionsThatStoreNothingFrame := by
  intro i s t h hi
  have hf : runsFix i = false := by
    obtain rfl | ⟨n, rfl⟩ | ⟨off, rfl⟩ | ⟨off, v, rfl, hne⟩ := hi
    · rfl
    · rfl
    · rfl
    · exact (runsFix_eq_false_iff _).2 ⟨by simp, by simpa using hne⟩
  have hw : ∀ n b, i = .imgWr n b → s.config.LEN ≤ n.toNat := by
    rintro n b rfl
    simp at hi
  obtain ⟨hconf, hscript, r, he, -⟩ := exec_cases h
  obtain ⟨hdone, hmatch⟩ := he.keeps_DONE_MATCH hf hw
  obtain ⟨hold, hnew⟩ := he.keeps_CSUM hf
  exact ⟨fun j => congrArg (Memory.read · j) (he.keeps_img hf hw), hold, hnew, hdone, hmatch, hconf, hscript⟩

/-- Settles O49: the read leaves the engine as it is, and so the second one responds from the same engine. -/
theorem readsHaveNoSideEffectAndRepeat : Obligations.ReadsHaveNoSideEffectAndRepeat := by
  intro i s t u hread h h'
  obtain ⟨he, hconf⟩ := exec_of_readsExisting hread h
  obtain ⟨he', -⟩ := exec_of_readsExisting (hconf.symm ▸ hread) h'
  refine ⟨he, he'.trans he, ?_⟩
  rw [response_of_exec h', response_of_exec h, he, hconf]

end Sys2Proof.Machine
end

section
/-! SUPPORT. Host scripts and flows: when a script is issued (spec/30_encoding.md R60, R62), what the host receives
for a list of transactions, and the two flows of spec/70_reset_and_hazards.md R108 to R110 part by part. -/

namespace Sys2Proof.Machine

/-! Issuing a script. -/

theorem issueScript_eq_ok {s t : State} {ls : List ScriptLine} :
    s.issueScript ls = .ok t ↔ ∃ is, assemble ls = .ok is ∧ s.issueAll is = t := by
  unfold State.issueScript
  split <;> simp [*]

theorem issueScript_eq_error {s : State} {ls : List ScriptLine} {err : ScriptError} :
    s.issueScript ls = .error err ↔ assemble ls = .error err := by
  unfold State.issueScript
  split <;> simp [*]

theorem assembleLine_of_mem_of_assemble {ls : List ScriptLine} {is : List Instr} (h : assemble ls = .ok is)
    {l : ScriptLine} (hl : l ∈ ls) : ∃ js, assembleLine l = .ok js := by
  obtain ⟨iss, hiss, -⟩ := assemble_eq_ok.1 h
  obtain ⟨hall, -⟩ := (List.forall₂_and_left ls iss).1 (hiss.imp fun l js hjs => ⟨Exists.intro js hjs, hjs⟩)
  exact hall l hl

/-- A script is issued when none of its lines is refused. -/
theorem issueScript_accepts_iff (s : State) (ls : List ScriptLine) :
    (∃ t, s.issueScript ls = .ok t) ↔ ∀ l ∈ ls, ∃ is, assembleLine l = .ok is := by
  constructor
  · rintro ⟨t, ht⟩ l hl
    obtain ⟨is, his, -⟩ := issueScript_eq_ok.1 ht
    exact assembleLine_of_mem_of_assemble his hl
  · intro hall
    cases h : assemble ls with
    | ok is => exact ⟨_, issueScript_eq_ok.2 ⟨is, h, rfl⟩⟩
    | error err =>
      obtain ⟨l, hl, hrefused⟩ := assemble_eq_error h
      obtain ⟨is, his⟩ := hall l hl
      cases hrefused.symm.trans his

/-! A list of transactions, one after the other. -/

/-- The engine after the transactions of a list. -/
def Engine.performAll (c : Config) : Engine → List Instr → Engine
  | e, [] => e
  | e, i :: is => Engine.performAll c (e.perform c i).1 is

/-- The responses to the transactions of a list. -/
def Engine.answers (c : Config) : Engine → List Instr → List Response
  | _, [] => []
  | e, i :: is => (e.perform c i).2 :: Engine.answers c (e.perform c i).1 is

/-- What a host receives for transactions it has issued to an engine with nothing before them. -/
theorem responses_of_script {s : State} {is : List Instr} (hc : s.config.legal = true)
    (hs : s.script = is.map encode) : responses is.length s = s.engine.answers s.config is := by
  induction is generalizing s with
  | nil => rfl
  | cons i is ih =>
    rw [List.length_cons, responses_succ is.length hc hs (decodeOfEncodeIsTheInstruction i), Engine.answers]
    exact congrArg (_ :: ·) (ih hc rfl)

theorem responses_issueAll {s : State} (is : List Instr) (hc : s.config.legal = true) (hs : s.script = []) :
    responses is.length (s.issueAll is) = s.engine.answers s.config is :=
  responses_of_script (s := s.issueAll is) hc (by rw [State.issueAll_script, hs, List.nil_append])

section
variable {c : Config}

theorem Engine.performAll_append (e : Engine) (is js : List Instr) :
    e.performAll c (is ++ js) = (e.performAll c is).performAll c js := by
  induction is generalizing e with
  | nil => rfl
  | cons i is ih => exact ih _

theorem Engine.answers_append (e : Engine) (is js : List Instr) :
    e.answers c (is ++ js) = e.answers c is ++ (e.performAll c is).answers c js := by
  induction is generalizing e with
  | nil => rfl
  | cons i is ih => exact congrArg (_ :: ·) (ih _)

theorem Engine.answers_of_unchanged {e : Engine} {is : List Instr} (h : ∀ i ∈ is, (e.perform c i).1 = e) :
    e.answers c is = is.map fun i => (e.perform c i).2 := by
  induction is with
  | nil => rfl
  | cons i is ih =>
    rw [Engine.answers, h i (by simp), ih fun j hj => h j (by simp [hj]), List.map_cons]

theorem Engine.length_img_performAll (e : Engine) (is : List Instr) :
    (e.performAll c is).img.length = e.img.length := by
  induction is generalizing e with
  | nil => rfl
  | cons i is ih => exact (ih _).trans (e.perform_effect c i).length_img

theorem Engine.wf_img_performAll {e : Engine} (is : List Instr) (hwf : Memory.wf e.img = true) :
    Memory.wf (e.performAll c is).img = true := by
  induction is generalizing e with
  | nil => exact hwf
  | cons i is ih => exact ih ((e.perform_effect c i).wf_img hwf)

/-! Loading an image (R108 step 2). -/

theorem loadImage_concat (image : List Byte) (b : Byte) :
    loadImage (image ++ [b]) = loadImage image ++ [.imgWr (BitVec.ofNat 16 image.length) b] := by
  simp [loadImage, List.zipIdx_append]

/-- An index of a legal image is the same number in 16 bits. -/
theorem toNat_index_of_lt (hc : c.legal = true) {n : Nat} (hn : n < c.LEN) : (BitVec.ofNat 16 n).toNat = n := by
  obtain ⟨-, -, hle⟩ := (Config.legal_iff c).1 hc
  rw [BitVec.toNat_ofNat, Nat.mod_eq_of_lt (by omega)]

/-- The next byte of a load: it is accepted, and stored at its index. -/
theorem Engine.perform_imgWr_ofNat (hc : c.legal = true) (e : Engine) (b : Byte) {n : Nat} (hn : n < c.LEN) :
    e.perform c (.imgWr (BitVec.ofNat 16 n) b) =
      ({ e with img := Memory.write e.img n b, STATUS := e.STATUS.afterImageWrite }, .done) := by
  have hi := toNat_index_of_lt hc hn
  rw [Engine.perform, Engine.imageWrite_of_lt e b (hi.symm ▸ hn), hi]

theorem Engine.perform_imgRd_ofNat (hc : c.legal = true) (e : Engine) {n : Nat} (hn : n < c.LEN) :
    e.perform c (.imgRd (BitVec.ofNat 16 n)) = (e, .byte (Memory.byteAt e.img n)) := by
  have hi := toNat_index_of_lt hc hn
  rw [Engine.perform, Engine.imageRead_of_lt e (hi.symm ▸ hn), hi]

theorem Engine.answers_loadImage (hc : c.legal = true) (e : Engine) {image : List Byte}
    (hlen : image.length ≤ c.LEN) : e.answers c (loadImage image) = List.replicate image.length .done := by
  induction image using List.reverseRecOn with
  | nil => rfl
  | append_singleton image b ih =>
    rw [List.length_append, List.length_singleton] at hlen ⊢
    rw [loadImage_concat, Engine.answers_append, ih (by omega), List.replicate_succ']
    simp only [Engine.answers, Engine.perform_imgWr_ofNat hc _ b (show image.length < c.LEN by omega)]

theorem Engine.read_loadImage (hc : c.legal = true) {e : Engine} (hwf : Memory.wf e.img = true)
    (hsize : e.img.length = c.LEN) {image : List Byte} (hlen : image.length ≤ c.LEN) {j : Nat}
    (hj : j < image.length) : Memory.read (e.performAll c (loadImage image)).img j = image[j]? := by
  induction image using List.reverseRecOn with
  | nil => simp at hj
  | append_singleton image b ih =>
    rw [List.length_append, List.length_singleton] at hlen hj
    have hwf' := Engine.wf_img_performAll (c := c) (loadImage image) hwf
    have hsize' := (Engine.length_img_performAll (c := c) e (loadImage image)).trans hsize
    rw [loadImage_concat, Engine.performAll_append]
    simp only [Engine.performAll, Engine.perform_imgWr_ofNat hc _ b (show image.length < c.LEN by omega)]
    rw [Memory.read_write hwf' (by omega)]
    by_cases hlast : j = image.length
    · simp [hlast]
    · have hlt : j < image.length := by omega
      rw [if_neg hlast, ih (by omega) hlt, List.getElem?_append_left hlt]

/-- A load of LEN bytes leaves exactly them in the image. -/
theorem Engine.img_loadImage (hc : c.legal = true) {e : Engine} (hwf : Memory.wf e.img = true)
    (hsize : e.img.length = c.LEN) {image : List Byte} (hlen : image.length = c.LEN) :
    (e.performAll c (loadImage image)).img = Memory.ofBytes image := by
  have hsize' := (Engine.length_img_performAll (c := c) e (loadImage image)).trans hsize
  refine Memory.ext_of_wf (Engine.wf_img_performAll _ hwf) (Memory.wf_ofBytes image) ?_ fun j hj => ?_
  · rw [hsize', Memory.length_ofBytes, hlen]
  · rw [Memory.read_ofBytes, Engine.read_loadImage hc hwf hsize hlen.le (by omega)]

/-! Reading the image back (R108 step 4), and FIX (step 3). -/

theorem Engine.answers_readBack (hc : c.legal = true) {e : Engine} {image : List Byte}
    (himg : e.img = Memory.ofBytes image) (hlen : image.length = c.LEN) :
    e.answers c (readBack c.LEN) = image.map .byte := by
  have hperform (n : Nat) (hn : n ∈ List.range c.LEN) := e.perform_imgRd_ofNat hc (List.mem_range.1 hn)
  have hbytes : (List.range c.LEN).map (fun n => Memory.byteAt e.img n) = image := by
    refine List.ext_getElem (by simp [hlen]) fun n hn _ => ?_
    simp only [List.length_map, List.length_range] at hn
    simp [himg, Memory.byteAt, hlen ▸ hn]
  rw [readBack, Engine.answers_of_unchanged, List.map_map, ← hbytes, List.map_map]
  · exact List.map_congr_left fun n hn => congrArg Prod.snd (hperform n hn)
  · intro i hi
    obtain ⟨n, hn, rfl⟩ := List.mem_map.1 hi
    exact congrArg Prod.fst (hperform n hn)

/-- FIX over the bytes of an image leaves the payload and, after it, the computed checksum, low byte first. -/
theorem Engine.img_fix_ofBytes (hc : c.legal = true) {e : Engine} {image : List Byte}
    (himg : e.img = Memory.ofBytes image) (hlen : image.length = c.LEN) :
    (e.fix c).1.img = Memory.ofBytes (image.take (c.LEN - 2) ++
      [(compute c e.img).extractLsb' 0 8, (compute c e.img).extractLsb' 8 8]) := by
  obtain ⟨-, hge, -⟩ := (Config.legal_iff c).1 hc
  have hwf : Memory.wf e.img = true := himg ▸ Memory.wf_ofBytes image
  have hsize : e.img.length = c.LEN := by rw [himg, Memory.length_ofBytes, hlen]
  have htake : (image.take (c.LEN - 2)).length = c.LEN - 2 := by rw [List.length_take, hlen]; omega
  refine Memory.ext_of_wf (wf_fix_img c hwf) (Memory.wf_ofBytes _) ?_ fun j hj => ?_
  · rw [length_fix_img, hsize, Memory.length_ofBytes, List.length_append, htake, List.length_cons,
      List.length_singleton]
    omega
  · rw [length_fix_img, hsize] at hj
    rw [read_fix hc hwf hsize, Memory.read_ofBytes, List.getElem?_append, htake]
    by_cases hpay : j < c.LEN - 2
    · rw [if_neg (by omega), if_neg (by omega), if_pos hpay, List.getElem?_take_of_lt hpay]
      rw [himg, Memory.read_ofBytes]
    · rw [if_neg hpay]
      obtain rfl | rfl : j = c.LEN - 2 ∨ j = c.LEN - 1 := by omega
      · simp
      · rw [if_neg (by omega), if_pos rfl, show c.LEN - 1 - (c.LEN - 2) = 1 by omega]
        rfl

end

/-! The flows' transactions, and the order of a Flash flow. -/

theorem runsFix_of_mem_loadImage {image : List Byte} {i : Instr} (h : i ∈ loadImage image) : runsFix i = false := by
  obtain ⟨p, -, rfl⟩ := List.mem_map.1 h
  rfl

theorem runsFix_of_mem_readBack {len : Nat} {i : Instr} (h : i ∈ readBack len) : runsFix i = false := by
  obtain ⟨n, -, rfl⟩ := List.mem_map.1 h
  rfl

theorem writesImage_of_mem_readBack {len : Nat} {i : Instr} (h : i ∈ readBack len) : writesImage i = false := by
  obtain ⟨n, -, rfl⟩ := List.mem_map.1 h
  rfl

/-- The transactions of a Flash flow on an input that is long enough. -/
def flashPlan (len : Nat) (input : List Byte) : List Instr :=
  loadImage (input.take len) ++ [carrier .fix] ++ readBack len

theorem flashFlow_of_lt {len : Nat} {input : List Byte} (h : input.length < len) :
    flashFlow len input = .error .shortRead := by
  rw [flashFlow, if_pos h]

theorem flashFlow_of_le {len : Nat} {input : List Byte} (h : len ≤ input.length) :
    flashFlow len input =
      .ok ((flashPlan len input).map .transaction ++ [.eraseDevice, .writeDevice, .resetDevice]) := by
  rw [flashFlow, if_neg (Nat.not_lt.2 h), flashPlan]

theorem flashFlow_eq_ok {len : Nat} {input : List Byte} {acts : List HostAction} :
    flashFlow len input = .ok acts ↔ len ≤ input.length ∧
      (flashPlan len input).map .transaction ++ [.eraseDevice, .writeDevice, .resetDevice] = acts := by
  by_cases h : len ≤ input.length
  · simp [flashFlow_of_le h, h]
  · simp [flashFlow_of_lt (Nat.not_le.1 h), h]

theorem flashPhaseAfter_append (p : FlashPhase) (as bs : List HostAction) :
    flashPhaseAfter p (as ++ bs) = (flashPhaseAfter p as).bind (flashPhaseAfter · bs) := by
  induction as generalizing p with
  | nil => rfl
  | cons a as ih =>
    rw [List.cons_append, flashPhaseAfter, flashPhaseAfter]
    cases p.next a with
    | none => rfl
    | some q => exact ih q

/-- Transactions that keep a phase one by one keep it together. -/
theorem flashPhaseAfter_transactions {p : FlashPhase} {is : List Instr}
    (h : ∀ i ∈ is, p.next (.transaction i) = some p) : flashPhaseAfter p (is.map .transaction) = some p := by
  induction is with
  | nil => rfl
  | cons i is ih =>
    rw [List.map_cons, flashPhaseAfter, h i (by simp)]
    exact ih fun j hj => h j (by simp [hj])

theorem flashPhaseAfter_loadImage (image : List Byte) :
    flashPhaseAfter .loading ((loadImage image).map .transaction) = some .loading :=
  flashPhaseAfter_transactions fun i hi => by rw [FlashPhase.next, runsFix_of_mem_loadImage hi]; rfl

theorem flashPhaseAfter_readBack (len : Nat) :
    flashPhaseAfter .repaired ((readBack len).map .transaction) = some .repaired :=
  flashPhaseAfter_transactions fun i hi => by rw [FlashPhase.next, writesImage_of_mem_readBack hi]; rfl

theorem flashPhaseAfter_flashPlan (len : Nat) (input : List Byte) :
    flashPhaseAfter .loading ((flashPlan len input).map .transaction) = some .repaired := by
  have hfix : flashPhaseAfter .loading ([carrier .fix].map .transaction) = some .repaired := rfl
  simp only [flashPlan, List.map_append, flashPhaseAfter_append, flashPhaseAfter_loadImage, Option.bind_some, hfix,
    flashPhaseAfter_readBack]

theorem filter_runsFix_flashPlan (len : Nat) (input : List Byte) :
    (flashPlan len input).filter runsFix = [carrier .fix] := by
  have hload : (loadImage (input.take len)).filter runsFix = [] :=
    List.filter_eq_nil_iff.2 fun i hi => by simp [runsFix_of_mem_loadImage hi]
  have hback : (readBack len).filter runsFix = [] :=
    List.filter_eq_nil_iff.2 fun i hi => by simp [runsFix_of_mem_readBack hi]
  rw [flashPlan, List.filter_append, List.filter_append, hload, hback]
  rfl

end Sys2Proof.Machine
end

section
/-! PROOFS. The obligations about host scripts and flows. -/

namespace Sys2Proof.Machine

/-- Settles O51: numbers that fit are the operands, and the descriptor's number is read off its fields. -/
theorem scriptLinesSpellTheirDescriptors : Obligations.ScriptLinesSpellTheirDescriptors := by
  intro i b off v hi hb hoff hv
  refine ⟨⟨_, _, assembleLine_of_wellFormed ((wellFormed_rdImg i).2 hi), rfl, ?_⟩,
    ⟨_, _, assembleLine_of_wellFormed ((wellFormed_wrImg i b).2 ⟨hi, hb⟩), rfl, ?_⟩,
    ⟨_, _, assembleLine_of_wellFormed ((wellFormed_rdReg off).2 hoff), rfl, ?_⟩,
    ⟨_, _, assembleLine_of_wellFormed ((wellFormed_wrReg off v).2 ⟨hoff, hv⟩), rfl, ?_⟩⟩
  · refine (toNat_image _ _ _).trans ?_
    simp [Nat.shiftLeft_eq, Nat.mod_eq_of_lt (show i < 65536 by omega)]
  · refine (toNat_image _ _ _).trans ?_
    simp [Nat.shiftLeft_eq, Nat.mod_eq_of_lt (show i < 65536 by omega), Nat.mod_eq_of_lt (show b < 256 by omega)]
  · refine (toNat_register _ _ _).trans ?_
    simp [Nat.shiftLeft_eq, Nat.mod_eq_of_lt (show off < 8 by omega)]
  · refine (toNat_register _ _ _).trans ?_
    simp [Nat.shiftLeft_eq, Nat.mod_eq_of_lt (show off < 8 by omega), Nat.mod_eq_of_lt (show v < 65536 by omega)]

/-- Settles O57: a script is issued when it is assembled, which needs every line; an `ld.img` of these two kinds fails
the check of R62. -/
theorem refusedLinesFollowTheModelsChoices : Obligations.RefusedLinesFollowTheModelsChoices := by
  refine ⟨fun s ls => ⟨issueScript_accepts_iff s ls, fun err h => assemble_eq_error (issueScript_eq_error.1 h),
    fun t h => ?_⟩, fun i bs h => ⟨_, assembleLine_eq_error.2 ⟨fun hwf => ?_, rfl⟩⟩⟩
  · obtain ⟨is, his, rfl⟩ := issueScript_eq_ok.1 h
    obtain ⟨iss, hiss, rfl⟩ := assemble_eq_ok.1 his
    exact ⟨iss, hiss, rfl⟩
  · obtain ⟨hne, hlast, -⟩ := (wellFormed_ldImg i bs).1 hwf
    obtain rfl | hlong := h
    · exact hne rfl
    · omega

/-- Settles O53: the plan's one FIX repairs the loaded image, the read-back keeps the repair, and the device actions
follow in order. -/
theorem flashFlowKeepsItsOrder : Obligations.FlashFlowKeepsItsOrder := by
  intro len input acts h
  obtain ⟨-, rfl⟩ := flashFlow_eq_ok.1 h
  constructor
  · rw [KeepsFlashOrder, flashPhaseAfter_append, flashPhaseAfter_flashPlan]
    rfl
  · rw [List.filter_append, List.length_append, List.filter_map, List.length_map]
    exact congrArg (List.length · + 0) (filter_runsFix_flashPlan len input)

/-- Settles O54: the length of the input is what the flow checks first. -/
theorem shortInputStopsTheFlashFlow : Obligations.ShortInputStopsTheFlashFlow :=
  fun _ _ => ⟨flashFlow_of_lt, fun h => ⟨_, flashFlow_of_le h⟩⟩

/-- Settles O55: the staging is image writes and image reads. -/
theorem backupStagingIssuesNoFix : Obligations.BackupStagingIssuesNoFix := by
  intro image
  refine List.all_eq_true.2 fun i hi => ?_
  obtain hload | hback := List.mem_append.1 hi
  · rw [runsFix_of_mem_loadImage hload]; rfl
  · rw [runsFix_of_mem_readBack hback]; rfl

/-- Settles O58: the load leaves the input in the image, FIX puts the computed checksum into its last two bytes, and the
read-back answers byte by byte. -/
theorem flashFlowReadsBackTheRepairedImage : Obligations.FlashFlowReadsBackTheRepairedImage := by
  intro s input acts ⟨hc, hwf, hsize⟩ hs h
  obtain ⟨hle, rfl⟩ := flashFlow_eq_ok.1 h
  obtain ⟨-, hge, -⟩ := (Config.legal_iff s.config).1 hc
  have hlen : (input.take s.config.LEN).length = s.config.LEN := List.length_take_of_le hle
  have himg := Engine.img_loadImage hc hwf hsize hlen
  have hfix := Engine.img_fix_ofBytes hc himg hlen
  have hback := Engine.answers_readBack hc hfix (by simp [hlen]; omega)
  refine ⟨flashPlan s.config.LEN input, _, rfl, rfl, ?_⟩
  rw [responses_issueAll _ hc hs, flashPlan, Engine.answers_append, Engine.answers_append, Engine.performAll_append,
    Engine.answers_loadImage hc _ hlen.le, hlen, List.replicate_succ']
  rw [himg, List.take_take, Nat.min_eq_left (by omega)] at hback
  exact congrArg (_ ++ ·) hback

/-- Settles O59: the load leaves the image's bytes in the engine, and the read-back answers them. -/
theorem backupStagingReadsBackWhatWasWritten : Obligations.BackupStagingReadsBackWhatWasWritten := by
  intro s image ⟨hc, hwf, hsize⟩ hs hlen
  rw [responses_issueAll _ hc hs, backupStaging, Engine.answers_append, Engine.answers_loadImage hc _ hlen.le, hlen,
    Engine.answers_readBack hc (Engine.img_loadImage hc hwf hsize hlen) hlen]

end Sys2Proof.Machine
end
